-- ==== Sys2Proof/Word.lean ====
section
/-!
DEFINITION. The two data sizes of the block's channels: a 32-bit command or response word (30_encoding.md R80,
10_state.md R47) and an 8-bit byte or character (00_scope.md R7 CHAR_BITS, R12). Every value is unsigned (R9).
-/

namespace Sys2Proof

/-- A command word on CMD or a response word on RESP: 32 bits (30_encoding.md R80, 10_state.md R47). -/
abbrev Word := BitVec 32

/-- An input byte, or an output character: 8 bits (00_scope.md R12, 20_memory.md R66). -/
abbrev Byte := BitVec 8

end Sys2Proof
end

