-- ==== Sys2Proof/Config.lean ====
section
/-!
DEFINITION. The parameters of 00_scope.md R7 as plain data, one value of `Params` for each build of the block, with the
values this hardware takes by default; the room that holds every build's registers; and the free values: opaque constants
with no body, of which nothing can be proved (93_implementation_defined.md U1 to U3).
-/

namespace Sys2Proof

/-- The parameters a build of the block may choose (00_scope.md R7; 92_eei_decisions.md, "Parameters a model takes as
arguments"). CHAR_BITS is fixed at 8 there; C_MAX, ACC_BITS and ALPHA_MAX are derived (Machine/Geometry.lean). -/
structure Params where
  /-- The members of SUPPORTED_K. R7: any subset of 1 to 8, so a number outside that range names no width
  (`Params.supportedK`). -/
  widths : List Nat
  /-- WRAP_BITS. R38 requires at most 16. -/
  wrapBits : Fin 17
  /-- NL_CHAR. -/
  nlChar : Byte
  deriving DecidableEq, Repr

/-- The parameters' defaults (00_scope.md R7; decisions D6, D8, D9). -/
def Params.default : Params where
  widths := [1, 3, 4, 6]
  wrapBits := 16
  nlChar := 0x0A#8

namespace Config

/-- The most ACC_BITS any SUPPORTED_K gives: 8 * C(7) (00_scope.md R7, R8; `Laws.Config.accBits_le`). ACC is held in this
room, its bits at and above ACC_BITS always 0 (log entry 19). -/
abbrev accRoom : Nat := 56

/-- The most WRAP_BITS may be (10_state.md R38). COL is held in this room, its bits at and above WRAP_BITS always 0 (log
entry 19). -/
abbrev wrapRoom : Nat := 16

/-- FREE VALUE: what entry `i` of ALPHABET holds after the `n`-th reset (10_state.md R41; 93 U1, U2: any value, never a
fixed one, the same at every use until the entry is written). DESIGN CHOICE, log entry 2; safe. -/
opaque alphabetAtReset (n i : Nat) : Byte

/-- FREE VALUE: ACC_READ_LAYOUT, what RDCSR ACC returns when ACC_BITS > 32 (10_state.md R37; decision D29, OPEN), for
each ACC_BITS and content of ACC. With the default parameters it is never used. DESIGN CHOICE, log entry 10; safe. -/
opaque accReadLayout (accBits : Nat) (acc : BitVec accRoom) : Word

/-- FREE VALUE: what a lookup at an index with no alphabet entry would give. 20_memory.md R61: the lookup never forms
such an index; only states no run reaches do. DESIGN CHOICE, log entry 9; safe. -/
opaque noEntry (i : Nat) : Byte

end Config

end Sys2Proof
end

