-- ==== Sys2Proof/Machine/Geometry.lean ====
section
/-!
DEFINITION. The geometry of a bit width (00_scope.md R8), and the parameters that follow from SUPPORTED_K (R7).
-/

namespace Sys2Proof.Machine

/-- C(k) = lcm(k, 8) / 8, the chunk size in bytes, for 1 <= k <= 8 (00_scope.md R8); 0 elsewhere, as GEOM reads
(10_state.md R36). -/
def chunkBytes (k : Nat) : Nat := if 1 ≤ k ∧ k ≤ 8 then Nat.lcm k 8 / 8 else 0

/-- S(k) = 8 * C(k) / k, the symbols of a chunk, for 1 <= k <= 8 (00_scope.md R8); 0 elsewhere (10_state.md R36). -/
def symsPerChunk (k : Nat) : Nat := if 1 ≤ k ∧ k ≤ 8 then 8 * chunkBytes k / k else 0

end Sys2Proof.Machine

namespace Sys2Proof

/-- The largest of some numbers; 0 of none. R7 states no maximum of an empty SUPPORTED_K: DESIGN CHOICE, log entry 1. -/
def largest (ns : List Nat) : Nat := ns.foldr max 0

/-- SUPPORTED_K: the bit widths START accepts, a subset of 1 to 8 (00_scope.md R7). -/
def Params.supportedK (p : Params) : List Nat := p.widths.filter fun k => 1 ≤ k ∧ k ≤ 8

/-- C_MAX = max of C(k) over SUPPORTED_K (00_scope.md R7). -/
def Params.cMax (p : Params) : Nat := largest (p.supportedK.map Machine.chunkBytes)

/-- ACC_BITS = 8 * C_MAX, the width of ACC (00_scope.md R7). -/
def Params.accBits (p : Params) : Nat := 8 * p.cMax

/-- ALPHA_MAX = 2^(max SUPPORTED_K), the number of alphabet entries (00_scope.md R7). -/
def Params.alphaMax (p : Params) : Nat := 2 ^ largest p.supportedK

end Sys2Proof
end

