-- ==== Sys2Proof/Syntax.lean ====
section
/-!
DEFINITION. The command set: one constructor of `Instr` per row of spec/opcode_table.json (30_encoding.md R82), with
the operands that Decode gives it (R89). Register specifiers stay 4-bit numbers here, since reserved numbers decode too
and are refused by the operand checks of R90; `Csr` names the seven that exist (10_state.md R27).
-/

namespace Sys2Proof

/-- The eight commands (30_encoding.md R82, R89). -/
inductive Instr where
  /-- WRCSR csr, value (40_config.md R101). -/
  | wrcsr (csr : BitVec 4) (value : BitVec 24)
  /-- RDCSR csr (40_config.md R106). -/
  | rdcsr (csr : BitVec 4)
  /-- WRALPHA index, sym (40_config.md R110). -/
  | wralpha (index sym : Byte)
  /-- START (40_config.md R114). -/
  | start
  /-- PUSH byte (42_stream.md R160). -/
  | push (byte : Byte)
  /-- END (42_stream.md R164). -/
  | endStream
  /-- RDERR (43_error_reports.md R180). -/
  | rderr
  /-- WRERR (43_error_reports.md R183). -/
  | wrerr
  deriving DecidableEq, Repr

/-- The implemented configuration and status registers (10_state.md R27). -/
inductive Csr where
  | mode | wrap | alen | status | geom | acc | count
  deriving DecidableEq, Repr

/-- Why a word raises ILLEGAL_COMMAND, by name: the items of 30_encoding.md R90. -/
inductive Illegal where
  /-- Item 1: opcode 0x0 or 0x9 to 0xF (R91). -/
  | reservedOpcode
  /-- Item 1: a field that must be zero is not (R81). -/
  | zeroField
  /-- Item 2: WRCSR names a read-only or a reserved CSR. -/
  | csrNotWritable
  /-- Item 3: WRCSR sets a reserved bit of its target. -/
  | reservedBits
  /-- Item 4: RDCSR names a reserved CSR. -/
  | csrReserved
  /-- Item 5: WRALPHA names an index at or above ALPHA_MAX. -/
  | noAlphabetEntry
  deriving DecidableEq, Repr

end Sys2Proof
end

