-- ==== Sys2Proof/Decode.lean ====
section
/-!
DEFINITION. Decoding of command words (30_encoding.md R80 to R93): `decode` is R89's Decode, total on every 32-bit
word; `Instr.operandFault` holds the operand checks R90 items 2 to 5 that a decoded command then goes through; `encode`
writes the words of R94's table; `decodeTableWord` reads an instruction whose bits are numbered as the opcode table
numbers them.
-/

namespace Sys2Proof

/-- `v[lo + len - 1 : lo]`, an unsigned bit field (00_scope.md R9). -/
abbrev bits {w : Nat} (v : BitVec w) (lo len : Nat) : BitVec len := v.extractLsb' lo len

/-- R89: a format with a "zero" field (R81) yields its command only when that field is all zeros. -/
def whenZero {n : Nat} (zero : BitVec n) (i : Instr) : Except Illegal Instr :=
  if zero = 0 then .ok i else .error .zeroField

/-- 30_encoding.md R89: Decode. It reads the word alone (R93); operand checks are separate (R90). -/
def decode (w : Word) : Except Illegal Instr :=
  match (bits w 28 4).toNat with
  | 1 => .ok (.wrcsr (bits w 24 4) (bits w 0 24))
  | 2 => whenZero (bits w 0 24) (.rdcsr (bits w 24 4))
  | 3 => whenZero (bits w 16 12) (.wralpha (bits w 8 8) (bits w 0 8))
  | 4 => whenZero (bits w 0 28) .start
  | 5 => whenZero (bits w 8 20) (.push (bits w 0 8))
  | 6 => whenZero (bits w 0 28) .endStream
  | 7 => whenZero (bits w 0 28) .rderr
  | 8 => whenZero (bits w 0 28) .wrerr
  | _ => .error .reservedOpcode

/-- 10_state.md R27: the register a CSR number names; 0x7 to 0xF are reserved (R39). -/
def Csr.ofNumber (n : BitVec 4) : Option Csr :=
  match n.toNat with
  | 0 => some .mode
  | 1 => some .wrap
  | 2 => some .alen
  | 3 => some .status
  | 4 => some .geom
  | 5 => some .acc
  | 6 => some .count
  | _ => none

/-- 10_state.md R27: the number of a register. -/
def Csr.number : Csr → BitVec 4
  | .mode => 0
  | .wrap => 1
  | .alen => 2
  | .status => 3
  | .geom => 4
  | .acc => 5
  | .count => 6

/-- 30_encoding.md R90 item 3: every reserved bit of the register is zero in `v` (MODE [7:4] and [15:9], WRAP [23:17],
ALEN [23:9]); 10_state.md R28, R31, R32. The read-only registers have no writable bit. -/
def reservedClear (c : Csr) (v : BitVec 24) : Bool :=
  match c with
  | .mode => bits v 4 4 == 0 && bits v 9 7 == 0
  | .wrap => bits v 17 7 == 0
  | .alen => bits v 9 15 == 0
  | .status | .geom | .acc | .count => v == 0

/-- 10_state.md R27: the registers a WRCSR may name. -/
def Csr.writable : Csr → Bool
  | .mode | .wrap | .alen => true
  | .status | .geom | .acc | .count => false

/-- 30_encoding.md R90 items 2 and 3, for a WRCSR. -/
def wrcsrFault (csr : BitVec 4) (value : BitVec 24) : Option Illegal :=
  match Csr.ofNumber csr with
  | none => some .csrNotWritable
  | some c =>
    if !c.writable then some .csrNotWritable
    else if !reservedClear c value then some .reservedBits
    else none

/-- 30_encoding.md R90 items 2 to 5: why a decoded command's operands are illegal, if they are. The answer depends on
the command and the build's parameters (R90: ALPHA_MAX) alone, never on STATE. -/
def Instr.operandFault (i : Instr) (p : Params) : Option Illegal :=
  match i with
  | .wrcsr csr value => wrcsrFault csr value
  | .rdcsr csr => if (Csr.ofNumber csr).isNone then some .csrReserved else none
  | .wralpha index _ => if index.toNat < p.alphaMax then none else some .noAlphabetEntry
  | .start | .push _ | .endStream | .rderr | .wrerr => none

/-- 30_encoding.md R94: the word of each command, its fields as R81 places them. -/
def encode : Instr → Word
  | .wrcsr csr value => 0x1#4 ++ csr ++ value
  | .rdcsr csr => 0x2#4 ++ csr ++ 0#24
  | .wralpha index sym => 0x3#4 ++ 0#12 ++ index ++ sym
  | .start => 0x40000000#32
  | .push byte => 0x5#4 ++ 0#20 ++ byte
  | .endStream => 0x60000000#32
  | .rderr => 0x70000000#32
  | .wrerr => 0x80000000#32

/-- The command word whose low `nbits` bits are `w`'s, every bit above them zero. A command is one 32-bit word with no
byte order (R64, R80), so the table's numbering is the word's own. -/
def tableWord (nbits w : Nat) : Word := BitVec.ofNat 32 (w % 2 ^ nbits)

/-- The instruction `decode` reads from the table word (none where it refuses). -/
def decodeTableWord (nbits w : Nat) : Option Instr := (decode (tableWord nbits w)).toOption

end Sys2Proof
end

