-- ==== Sys2Proof/Machine/State.lean ====
section
/-!
DEFINITION. The block's whole architectural state (10_state.md R20) as plain data, the channels of R46 to R48, the
reasons a step may stop, and the state right after reset (R50).
-/

namespace Sys2Proof.Machine

/-- STATE, the 2-bit session state machine: all four values are legal (10_state.md R21). -/
inductive SessionState where
  /-- 0: no session since reset. -/
  | idle
  /-- 1: a session is running. -/
  | active
  /-- 2: the last session ended normally. -/
  | done
  /-- 3: an error was raised; the session is aborted. -/
  | error
  deriving DecidableEq, Repr

/-- ERR_CODE, 3 bits: the six values that are ever written (10_state.md R23, 60_exceptions.md R190; 93 U10: codes 6
and 7 never occur). DEDUCED, log entry 13; safe. -/
inductive ErrCode where
  /-- 0 NONE. -/
  | none
  /-- 1 CONFIG_ERROR. -/
  | configError
  /-- 2 IO_ERROR_SOURCE. -/
  | ioErrorSource
  /-- 3 IO_ERROR_SINK. -/
  | ioErrorSink
  /-- 4 ILLEGAL_COMMAND. -/
  | illegalCommand
  /-- 5 SEQUENCE_ERROR. -/
  | sequenceError
  deriving DecidableEq, Repr

/-- One thing the environment does to the block: it sends a command word on CMD (10_state.md R48), or it asserts `rst`
between two commands (R49, 70_reset_and_hazards.md R220). -/
inductive Input where
  | word (w : Word)
  | rst
  deriving DecidableEq, Repr

/-- The architectural state, every row of 10_state.md R20 and nothing else of the block's (R74). `params` is the
build's parameters (R7), which no step changes (log entry 1). The last two fields are the model's own: what the environment
still has to send (log entry 3) and the count of resets that names the free draw of the alphabet (log entry 2). -/
structure State where
  /-- The parameters of this build (00_scope.md R7). -/
  params : Params
  /-- `STATE` (R21). -/
  state : SessionState
  /-- `ERR_CODE` (R23). -/
  errCode : ErrCode
  /-- `MODE` (R28). -/
  mode : BitVec 24
  /-- `WRAP` (R31). -/
  wrap : BitVec 24
  /-- `ALEN` (R32). -/
  alen : BitVec 24
  /-- `ALPHABET` (R40): ALPHA_MAX entries, entry 0 first. -/
  alphabet : List Byte
  /-- `ACC` (R33), its bits below ACC_BITS. -/
  acc : BitVec Config.accRoom
  /-- `BYTE_CNT` (R34). -/
  byteCnt : BitVec 3
  /-- `COL` (R35), its bits below WRAP_BITS. -/
  col : BitVec Config.wrapRoom
  /-- `OUT`: every character emitted since reset, oldest first (R46). -/
  out : List Byte
  /-- `RESP`: every RDCSR result since reset, oldest first (R47). -/
  resp : List Word
  /-- The inputs still to come, the next one first: the words of CMD (R48) and the assertions of `rst` (R220). -/
  input : List Input
  /-- The model's own: the number of times `rst` was asserted in this run. -/
  resets : Nat
  deriving DecidableEq, Repr

/-- No reason stops the block: every command, legal or not, ends in a next state (60_exceptions.md R193, R196;
70_reset_and_hazards.md R236), and a block with no command to run waits with its state held (R210). Nobody raises a
fault, so the type is empty; that is safe. -/
inductive Fault where
  deriving DecidableEq, Repr

/-- Why the model gives an instruction no meaning. -/
inductive Refusal where
  /-- Raised by an arm of `exec` whose instruction has no meaning in the model yet; safe (the run stops). No arm of
  this model raises it. -/
  | notModelled (mnemonic : String)
  deriving DecidableEq, Repr

/-- ALPHABET after the `n`-th reset of a build: every entry unspecified (10_state.md R41), a free value each. -/
def alphabetAtReset (p : Params) (n : Nat) : List Byte :=
  (List.range p.alphaMax).map (Config.alphabetAtReset n)

/-- The state right after reset (10_state.md R50) of a build with the parameters `p`, with no input yet
(DESIGN CHOICE, log entry 3). -/
def State.resetOf (p : Params) : State where
  params := p
  state := .idle
  errCode := .none
  mode := 0
  wrap := 0
  alen := 0
  alphabet := alphabetAtReset p 0
  acc := 0
  byteCnt := 0
  col := 0
  out := []
  resp := []
  input := []
  resets := 0

/-- The state right after reset of the build with the default parameters (00_scope.md R7). -/
def State.reset : State := State.resetOf Params.default

end Sys2Proof.Machine
end

