-- ==== Sys2Proof/Machine/Flags.lean ====
section
/-!
DEFINITION. The status flags. The block has no arithmetic flags (10_state.md R24): its flags are STATE and ERR_CODE,
their bit codes (R21, 60_exceptions.md R190) and the level outputs `err_o` and `done_o` (10_state.md R49).
-/

namespace Sys2Proof.Machine

/-- The 2-bit value of STATE (10_state.md R21). -/
def SessionState.code : SessionState → BitVec 2
  | .idle => 0
  | .active => 1
  | .done => 2
  | .error => 3

/-- The 3-bit value of ERR_CODE (60_exceptions.md R190). -/
def ErrCode.code : ErrCode → BitVec 3
  | .none => 0
  | .configError => 1
  | .ioErrorSource => 2
  | .ioErrorSink => 3
  | .illegalCommand => 4
  | .sequenceError => 5

/-- `err_o`: 1 exactly when STATE = ERROR (10_state.md R49, 60_exceptions.md R200). -/
def State.errO (s : State) : Bool := s.state == .error

/-- `done_o`: 1 exactly when STATE = DONE (10_state.md R49, 60_exceptions.md R200). -/
def State.doneO (s : State) : Bool := s.state == .done

end Sys2Proof.Machine
end

