-- ==== Sys2Proof/Machine/Operands.lean ====
section
/-!
DEFINITION. The operands of the commands: the fields of the configuration registers (10_state.md R28, R31, R32), the
geometry they imply (Machine/Geometry.lean), the 32-bit value each CSR reads as (R36 to R38, 40_config.md R106), and START's
configuration check (40_config.md R116).
-/

namespace Sys2Proof.Machine

/-- `k = MODE.BIT_WIDTH` (10_state.md R28). -/
def State.bitWidth (s : State) : Nat := (bits s.mode 0 4).toNat

/-- MODE.PAD_EN (10_state.md R28). -/
def State.padEn (s : State) : Bool := bits s.mode 8 1 == 1

/-- MODE.PAD_SYM (10_state.md R28). -/
def State.padSym (s : State) : Byte := bits s.mode 16 8

/-- WRAP.WIDTH: WRAP_BITS wide (00_scope.md R7), from bit 0 up (10_state.md R31). In a build with WRAP_BITS below 16 the
bits of WRAP[15:0] above it are stored and take no part. DEDUCED, log entry 20. -/
def State.wrapWidth (s : State) : BitVec Config.wrapRoom := (bits s.wrap 0 s.params.wrapBits).setWidth 16

/-- WRAP.EN (10_state.md R31). -/
def State.wrapEn (s : State) : Bool := bits s.wrap 16 1 == 1

/-- ALEN.LEN (10_state.md R32). -/
def State.alphaLen (s : State) : Nat := (bits s.alen 0 9).toNat

/-- `C` of the configuration in force (41_datapath.md R130, R131). -/
def State.chunk (s : State) : Nat := chunkBytes s.bitWidth

/-- `S` of the configuration in force (41_datapath.md R130, R131). -/
def State.syms (s : State) : Nat := symsPerChunk s.bitWidth

/-- STATUS: STATE in [1:0], ERR_CODE in [6:4], 0 elsewhere (10_state.md R36). -/
def State.statusWord (s : State) : Word := 0#25 ++ s.errCode.code ++ 0#2 ++ s.state.code

/-- GEOM: CHUNK_BYTES in [3:0], SYMS_PER_CHUNK in [7:4], 0 elsewhere (10_state.md R36). -/
def State.geomWord (s : State) : Word := 0#24 ++ BitVec.ofNat 4 s.syms ++ BitVec.ofNat 4 s.chunk

/-- ACC as RDCSR reads it: zero-extended where it fits 32 bits, the open ACC_READ_LAYOUT otherwise
(10_state.md R37). -/
def State.accWord (s : State) : Word :=
  if s.params.accBits ≤ 32 then s.acc.setWidth 32 else Config.accReadLayout s.params.accBits s.acc

/-- COUNT: BYTE_CNT in [2:0], COL in [31:16], 0 elsewhere (10_state.md R38). -/
def State.countWord (s : State) : Word := s.col.setWidth 16 ++ 0#13 ++ s.byteCnt

/-- The 32-bit value of a CSR (40_config.md R106). -/
def State.readCsr (s : State) : Csr → Word
  | .mode => s.mode.setWidth 32
  | .wrap => s.wrap.setWidth 32
  | .alen => s.alen.setWidth 32
  | .status => s.statusWord
  | .geom => s.geomWord
  | .acc => s.accWord
  | .count => s.countWord

/-- ConfigValid(), START's check (40_config.md R116). It looks at no alphabet entry, not at PAD_SYM, and not at
whether WIDTH is a multiple of S (10_state.md R42). -/
def State.configValid (s : State) : Bool :=
  s.params.supportedK.contains s.bitWidth
    && s.alphaLen == 2 ^ s.bitWidth
    && (s.chunk == 1 || s.padEn)
    && (!s.wrapEn || decide (1 ≤ s.wrapWidth.toNat))

end Sys2Proof.Machine
end

