-- ==== Sys2Proof/Machine/Ops.lean ====
section
/-!
DEFINITION. The named operations on the state: the channel primitives Emit and Respond (00_scope.md R10), register
writes, entering the error state (`State.raise`, 60_exceptions.md R193: the block's one exception entry) and leaving it
(`State.beginSession`, 40_config.md R118, 60_exceptions.md R199), reset (70_reset_and_hazards.md R220), and the
admission of a command, which fixes the priority of errors (60_exceptions.md R196, R197).
-/

namespace Sys2Proof.Machine

/-- Emit(ch): append one character to OUT (00_scope.md R10, 10_state.md R46). -/
def State.emit (s : State) (ch : Byte) : State := { s with out := s.out ++ [ch] }

/-- Respond(v): append one word to RESP (00_scope.md R10, 10_state.md R47). -/
def State.respond (s : State) (v : Word) : State := { s with resp := s.resp ++ [v] }

/-- ALPHABET[index] <- sym (40_config.md R110). -/
def State.setAlphabet (s : State) (index : Nat) (sym : Byte) : State :=
  { s with alphabet := s.alphabet.set index sym }

/-- CSR <- value for the writable registers (40_config.md R102); the read-only ones are never written (R103). -/
def State.writeCsr (s : State) (c : Csr) (value : BitVec 24) : State :=
  match c with
  | .mode => { s with mode := value }
  | .wrap => { s with wrap := value }
  | .alen => { s with alen := value }
  | .status | .geom | .acc | .count => s

/-- STATE and ERR_CODE. -/
def State.setStatus (s : State) (st : SessionState) (code : ErrCode) : State :=
  { s with state := st, errCode := code }

/-- ACC and BYTE_CNT. -/
def State.setChunk (s : State) (acc : BitVec Config.accRoom) (byteCnt : BitVec 3) : State :=
  { s with acc := acc, byteCnt := byteCnt }

/-- COL. -/
def State.setCol (s : State) (col : BitVec Config.wrapRoom) : State := { s with col := col }

/-- The inputs still to come. -/
def State.setInput (s : State) (input : List Input) : State := { s with input := input }

/-- `raise E`, the only error entry (60_exceptions.md R193): outside ERROR it sets STATE and ERR_CODE and nothing
else (R194); in ERROR it has no effect, so the first code is kept (R198). -/
def State.raise (s : State) (e : ErrCode) : State :=
  if s.state = .error then s else s.setStatus .error e

/-- A START whose check passes (40_config.md R118): ACTIVE, no error, an empty datapath. It is also the one command that
leaves ERROR (60_exceptions.md R199). -/
def State.beginSession (s : State) : State := ((s.setStatus .active .none).setChunk 0 0).setCol 0

/-- Asserting `rst` (10_state.md R50, 70_reset_and_hazards.md R220): every piece of state at its reset value, the
alphabet at a fresh free draw, the build's parameters as they are, and the command that would have been next still next. -/
def State.assertReset (s : State) : State :=
  { State.resetOf s.params with
    alphabet := alphabetAtReset s.params (s.resets + 1), input := s.input, resets := s.resets + 1 }

/-- What becomes of a command in a state (60_exceptions.md R196). -/
inductive Admission where
  /-- Its operands fail 30_encoding.md R90: ILLEGAL_COMMAND, priority 1. -/
  | illegal
  /-- It changes nothing and emits nothing. -/
  | ignored
  /-- It is out of sequence: SEQUENCE_ERROR, priority 2. -/
  | outOfSequence
  /-- It executes per its rule, which may raise the command's own error, priority 3. -/
  | executes
  deriving DecidableEq, Repr

/-- PUSH, END, RDERR and WRERR: ignored in ERROR (60_exceptions.md R197). -/
def ignoredInError : Instr → Bool
  | .push _ | .endStream | .rderr | .wrerr => true
  | .wrcsr _ _ | .rdcsr _ | .wralpha _ _ | .start => false

/-- WRCSR, WRALPHA and START: out of sequence in ACTIVE (60_exceptions.md R197). -/
def barredInActive : Instr → Bool
  | .wrcsr _ _ | .wralpha _ _ | .start => true
  | .rdcsr _ | .push _ | .endStream | .rderr | .wrerr => false

/-- PUSH and END: out of sequence in IDLE and DONE (60_exceptions.md R197). -/
def needsSession : Instr → Bool
  | .push _ | .endStream => true
  | .wrcsr _ _ | .rdcsr _ | .wralpha _ _ | .start | .rderr | .wrerr => false

/-- The checks of Step(w) on a decoded command, in its order (60_exceptions.md R197). -/
def admission (p : Params) (i : Instr) (st : SessionState) : Admission :=
  if (i.operandFault p).isSome then .illegal
  else if st = .error ∧ ignoredInError i then .ignored
  else if st = .active ∧ barredInActive i then .outOfSequence
  else if (st = .idle ∨ st = .done) ∧ needsSession i then .outOfSequence
  else .executes

/-- One command as one atomic step (00_scope.md R11, 60_exceptions.md R197): its checks in order, and `effect` when it
executes. Every meaning of `exec` is one call of this with its own effect. -/
def perform (i : Instr) (s : State) (effect : State → State) : Host.Outcome State Fault Refusal :=
  match admission s.params i s.state with
  | .illegal => .next (s.raise .illegalCommand)
  | .ignored => .next s
  | .outOfSequence => .next (s.raise .sequenceError)
  | .executes => .next (effect s)

end Sys2Proof.Machine
end

