-- ==== Sys2Proof/Machine/Configure.lean ====
section
/-!
DEFINITION. The configuration and session commands WRCSR, RDCSR, WRALPHA and START (40_config.md).
-/

namespace Sys2Proof.Machine

/-- WRCSR's effect (40_config.md R102). -/
def wrcsrEffect (csr : BitVec 4) (value : BitVec 24) (s : State) : State :=
  match Csr.ofNumber csr with
  | some c => s.writeCsr c value
  | none => s

/-- WRCSR (40_config.md R101 to R105). -/
def execWrcsr (csr : BitVec 4) (value : BitVec 24) (s : State) : Host.Outcome State Fault Refusal :=
  perform (.wrcsr csr value) s (wrcsrEffect csr value)

/-- RDCSR's effect: one word on RESP, nothing else (40_config.md R106, 20_memory.md R67). -/
def rdcsrEffect (csr : BitVec 4) (s : State) : State :=
  match Csr.ofNumber csr with
  | some c => s.respond (s.readCsr c)
  | none => s

/-- RDCSR (40_config.md R106 to R109). -/
def execRdcsr (csr : BitVec 4) (s : State) : Host.Outcome State Fault Refusal :=
  perform (.rdcsr csr) s (rdcsrEffect csr)

/-- WRALPHA (40_config.md R110 to R113). -/
def execWralpha (index sym : Byte) (s : State) : Host.Outcome State Fault Refusal :=
  perform (.wralpha index sym) s fun s => s.setAlphabet index.toNat sym

/-- START's effect: a session (40_config.md R118), or CONFIG_ERROR, which replaces the code even in ERROR (R117). -/
def startEffect (s : State) : State :=
  if s.configValid then s.beginSession else s.setStatus .error .configError

/-- START (40_config.md R114 to R120). -/
def execStart (s : State) : Host.Outcome State Fault Refusal := perform .start s startEffect

end Sys2Proof.Machine
end

