-- ==== Sys2Proof/Machine/ErrorReport.lean ====
section
/-!
DEFINITION. The error-report commands RDERR and WRERR (43_error_reports.md).
-/

namespace Sys2Proof.Machine

/-- RDERR: the byte source reports a read error (43_error_reports.md R180 to R182). -/
def execRderr (s : State) : Host.Outcome State Fault Refusal :=
  perform .rderr s fun s => s.raise .ioErrorSource

/-- WRERR: the sink reports a write failure (43_error_reports.md R183 to R186). -/
def execWrerr (s : State) : Host.Outcome State Fault Refusal :=
  perform .wrerr s fun s => s.raise .ioErrorSink

end Sys2Proof.Machine
end

