-- ==== Sys2Proof/Machine/Datapath.lean ====
section
/-!
DEFINITION. The encoding datapath (41_datapath.md): bit_accumulator_and_shifter, symbol_extractor, padding_inserter and
line_wrap_counter, and `State.emitChunk`, which composes them. None of these procedures is a command.
-/

namespace Sys2Proof.Machine

/-! ### bit_accumulator_and_shifter -/

/-- `acc[lo + 7 : lo] <- b`, no other bit changed. -/
def insertByte (acc : BitVec Config.accRoom) (lo : Nat) (b : Byte) : BitVec Config.accRoom :=
  (acc &&& ~~~((0xFF#8).setWidth Config.accRoom <<< lo)) ||| (b.setWidth Config.accRoom <<< lo)

/-- AccInsert(b) (41_datapath.md R132): byte `m = BYTE_CNT` of the chunk, most significant first. It requires
BYTE_CNT < C, which holds in every state a run reaches (10_state.md R44; log entry 8). -/
def State.accInsert (s : State) (b : Byte) : State :=
  s.setChunk (insertByte s.acc (8 * (s.chunk - s.byteCnt.toNat - 1)) b) (s.byteCnt + 1)

/-- The packed word P = ACC[8C-1 : 0], zero-filled where no byte was read (41_datapath.md R133, R134). -/
def State.packed (s : State) : BitVec (8 * s.chunk) := s.acc.setWidth (8 * s.chunk)

/-! ### symbol_extractor -/

/-- The top `k` bits of the shift register SH (41_datapath.md R135). -/
def topBits {w : Nat} (sh : BitVec w) (k : Nat) : Nat := (bits sh (w - k) k).toNat

/-- ALPHABET[i] (41_datapath.md R138). No index at or above ALPHA_MAX is ever formed (20_memory.md R61); for one the
answer is a free value (log entry 9). -/
def State.symbol (s : State) (i : Nat) : Byte :=
  s.alphabet[i]?.getD (Config.noEntry i)

/-! ### padding_inserter -/

/-- Position `j` of a chunk emitted with `r` bytes read is real when `j * k < r * 8` (41_datapath.md R140;
90_conflicts.md C1). -/
def isReal (k r j : Nat) : Bool := decide (j * k < r * 8)

/-- The character of position `j`, whose extracted index is `i` (41_datapath.md R142). -/
def State.positionChar (s : State) (r j i : Nat) : Byte :=
  if isReal s.bitWidth r j then s.symbol i else s.padSym

/-! ### line_wrap_counter -/

/-- EmitSymbol(ch) (41_datapath.md R144). -/
def State.emitSymbol (s : State) (ch : Byte) : State :=
  let t := s.emit ch
  if t.wrapEn then
    let u := t.setCol (t.col + 1)
    if u.col = u.wrapWidth then (u.emit u.params.nlChar).setCol 0 else u
  else t

/-- FinishLine(): the trailing newline (41_datapath.md R148; 90_conflicts.md C2). -/
def State.finishLine (s : State) : State :=
  if s.wrapEn ∧ s.col ≠ 0 then (s.emit s.params.nlChar).setCol 0 else s

/-! ### the composition -/

/-- The loop of EmitChunk (41_datapath.md R147): `n` positions still to emit, the next being `j`, with the shift
register at `sh`. -/
def emitPositions {w : Nat} (r : Nat) : (n j : Nat) → (sh : BitVec w) → State → State
  | 0, _, _, s => s
  | n + 1, j, sh, s =>
    emitPositions r n (j + 1) (sh <<< s.bitWidth)
      (s.emitSymbol (s.positionChar r j (topBits sh s.bitWidth)))

/-- EmitChunk(r) (41_datapath.md R147): all S symbols of the chunk, then ACC and BYTE_CNT cleared. -/
def State.emitChunk (s : State) (r : Nat) : State :=
  (emitPositions r s.syms 0 s.packed s).setChunk 0 0

end Sys2Proof.Machine
end

