-- ==== Sys2Proof/Machine/Stream.lean ====
section
/-!
DEFINITION. The stream commands PUSH and END (42_stream.md).
-/

namespace Sys2Proof.Machine

/-- PUSH's effect (42_stream.md R160): the byte is inserted, and the byte that fills the chunk emits it. -/
def pushEffect (b : Byte) (s : State) : State :=
  let t := s.accInsert b
  if t.byteCnt.toNat = t.chunk then t.emitChunk t.chunk else t

/-- PUSH (42_stream.md R160 to R163). -/
def execPush (b : Byte) (s : State) : Host.Outcome State Fault Refusal :=
  perform (.push b) s (pushEffect b)

/-- END, part 1: the short final chunk (42_stream.md R166). -/
def State.flushChunk (s : State) : State :=
  if 0 < s.byteCnt.toNat then s.emitChunk s.byteCnt.toNat else s

/-- END's effect (42_stream.md R166, R167). It leaves ERR_CODE alone. -/
def endEffect (s : State) : State :=
  let t := s.flushChunk.finishLine
  t.setStatus .done t.errCode

/-- END (42_stream.md R164 to R170). -/
def execEnd (s : State) : Host.Outcome State Fault Refusal := perform .endStream s endEffect

end Sys2Proof.Machine
end

