-- ==== Sys2Proof/Machine/Dispatch.lean ====
section
/-! DEFINITION. The meaning of each command: one arm per constructor of Instr, each one call (60_exceptions.md R197). -/

namespace Sys2Proof.Machine

def exec (i : Instr) (s : State) : Host.Outcome State Fault Refusal :=
  match i with
  | .wrcsr csr value => Sys2Proof.Machine.execWrcsr csr value s
  | .rdcsr csr => Sys2Proof.Machine.execRdcsr csr s
  | .wralpha index sym => Sys2Proof.Machine.execWralpha index sym s
  | .start => Sys2Proof.Machine.execStart s
  | .push byte => Sys2Proof.Machine.execPush byte s
  | .endStream => Sys2Proof.Machine.execEnd s
  | .rderr => Sys2Proof.Machine.execRderr s
  | .wrerr => Sys2Proof.Machine.execWrerr s

end Sys2Proof.Machine
end

