-- ==== Sys2Proof/Machine/Fetch.lean ====
section
/-!
DEFINITION. Taking the next input: a command word is decoded and run, an illegal one raises ILLEGAL_COMMAND
(60_exceptions.md R197), and `rst` resets the block between two commands (70_reset_and_hazards.md R220).
-/

namespace Sys2Proof.Machine

/-- Step(w) of 60_exceptions.md R197. A word that does not decode raises ILLEGAL_COMMAND, with no effect in ERROR; the
other checks are `exec`'s. -/
def runWord (w : Word) (s : State) : Host.Outcome State Fault Refusal :=
  match decode w with
  | .ok i => exec i s
  | .error _ => .next (s.raise .illegalCommand)

/-- One input of the environment, in a state whose `input` no longer holds it. -/
def runInput (e : Input) (s : State) : Host.Outcome State Fault Refusal :=
  match e with
  | .word w => runWord w s
  | .rst => .next s.assertReset

/-- One step: the next input, in arrival order (00_scope.md R11, 10_state.md R48). With none, the block waits and holds
its state (60_exceptions.md R210; log entry 4). -/
def advance (s : State) : Host.Outcome State Fault Refusal :=
  match s.input with
  | [] => .next s
  | e :: rest => runInput e (s.setInput rest)

/-- The word as the next input to arrive on CMD. -/
def State.offer (s : State) (w : Word) : State := s.setInput (.word w :: s.input)

end Sys2Proof.Machine
end

