-- ==== Sys2Proof/Machine/Step.lean ====
section
/-! DEFINITION. One step of the machine, and the placing of a command word where the next step takes it. -/

namespace Sys2Proof.Machine

/-- One step (60_exceptions.md R197, 70_reset_and_hazards.md R220). -/
def step (s : State) : Host.Outcome State Fault Refusal := advance s

/-- `s` with the table word of `nbits` bits as the next word on CMD; it stands for the word's arrival from outside
(log entry 5). -/
def State.withFetchWord (s : State) (nbits w : Nat) : State := s.offer (tableWord nbits w)

end Sys2Proof.Machine
end

