-- ==== Sys2Proof/Machine/Assembler.lean ====
section
/-!
DEFINITION. The assembler's notation (30_encoding.md R94 to R98): command lines, `.word`, literals, comments and the
pseudo-instructions, as functions from a line to the words it places on CMD. The block itself knows nothing of it
(decision D30). `none` is an assembly error. DESIGN CHOICE: log entry 18 says what R94 to R98 leave open of it and how the
model settles it.
-/

namespace Sys2Proof.Machine

/-! ### Lines and the words they stand for -/

/-- A line with its operands as numbers. -/
inductive AsmLine where
  | wrcsr (csr value : Nat)
  | rdcsr (csr : Nat)
  | wralpha (index sym : Nat)
  | start
  | push (byte : Nat)
  | endStream
  | rderr
  | wrerr
  /-- `.word <value>` (R94). -/
  | word (value : Nat)
  /-- `SETMODE <k>, <pad>` (R96); `none` is `NONE`. -/
  | setMode (k : Nat) (pad : Option Nat)
  /-- `SETWRAP <w>` (R96); `none` is `NONE`. -/
  | setWrap (width : Option Nat)
  /-- `LOADALPHA "<s>"` (R96). -/
  | loadAlpha (s : List Nat)
  /-- `CHUNK <c>, <r>, <b0>, ...` (R97). -/
  | chunk (c r : Nat) (bs : List Nat)
  /-- `ENCODE "<s>"` or `ENCODE <b0>, ...` (R98). -/
  | encodeBytes (bs : List Nat)
  deriving DecidableEq, Repr

/-- A literal in a field of `len` bits: one that does not fit is an error, never truncated (R95). -/
def fit (len n : Nat) : Option (BitVec len) := if n < 2 ^ len then some (BitVec.ofNat len n) else none

/-- Every literal of a list in a byte field. -/
def fitBytes (bs : List Nat) : Option (List Byte) := bs.mapM (fit 8)

/-- `WRALPHA i, s[i]` in index order from `i` (R96). -/
def alphaCommands : Nat → List Nat → Option (List Instr)
  | _, [] => some []
  | i, c :: cs => do
    let index ← fit 8 i
    let sym ← fit 8 c
    let rest ← alphaCommands (i + 1) cs
    return .wralpha index sym :: rest

/-- `PUSH` of each byte, in order (R97, R98). -/
def pushCommands (bs : List Byte) : List Instr := bs.map .push

/-- The commands a line expands to (R94, R96 to R98). `.word` has none of its own; see `lineWords`.
DESIGN CHOICE, log entry 18: R96 does not say which field a literal of a configuration line must fit; `<k>` of SETMODE must
fit BIT_WIDTH (4 bits), its pad PAD_SYM (8 bits), and `<w>` of SETWRAP WIDTH (16 bits).
DESIGN CHOICE, log entry 18: R97 gives `CHUNK 0, 0` two readings, no END since `r < c` is false, and a bare END since
`r = 0`; it expands to nothing here. No chunk size is 0, so R97 already bids the host never to write it. -/
def lineCommands : AsmLine → Option (List Instr)
  | .wrcsr csr value => do return [.wrcsr (← fit 4 csr) (← fit 24 value)]
  | .rdcsr csr => do return [.rdcsr (← fit 4 csr)]
  | .wralpha index sym => do return [.wralpha (← fit 8 index) (← fit 8 sym)]
  | .start => some [.start]
  | .push byte => do return [.push (← fit 8 byte)]
  | .endStream => some [.endStream]
  | .rderr => some [.rderr]
  | .wrerr => some [.wrerr]
  | .word _ => none
  | .setMode k none => do return [.wrcsr Csr.mode.number (0#20 ++ (← fit 4 k))]
  | .setMode k (some pad) => do
    let k ← fit 4 k
    let pad ← fit 8 pad
    return [.wrcsr Csr.mode.number (pad ++ 0#7 ++ 1#1 ++ 0#4 ++ k)]
  | .setWrap none => some [.wrcsr Csr.wrap.number 0]
  | .setWrap (some width) => do return [.wrcsr Csr.wrap.number (0#7 ++ 1#1 ++ (← fit 16 width))]
  | .loadAlpha s => do
    let entries ← alphaCommands 0 s
    let len ← fit 24 s.length
    return entries ++ [.wrcsr Csr.alen.number len]
  | .chunk c r bs =>
    if bs.length = r ∧ r ≤ c then do
      let bs ← fitBytes bs
      return pushCommands bs ++ if r < c then [.endStream] else []
    else none
  | .encodeBytes bs => do return pushCommands (← fitBytes bs) ++ [.endStream]

/-- The words a line places on CMD (R94). -/
def lineWords : AsmLine → Option (List Word)
  | .word value => do return [← fit 32 value]
  | line => do return (← lineCommands line).map encode

/-! ### The text of a line -/

/-- The tokens of a line: a bare word, a character in single quotes, a string in double quotes, a comma. -/
inductive Token where
  | bare (cs : List Char)
  | char (c : Char)
  | text (cs : List Char)
  | comma
  deriving DecidableEq, Repr

/-- Where the tokenizer stands in a line. -/
inductive LexMode where
  | gap
  | bare (rev : List Char)
  | quote
  | quoted (c : Char)
  | text (rev : List Char)
  | comment
  | bad
  deriving DecidableEq, Repr

/-- A character between tokens: blanks separate, a comma (44) is a token, a semicolon (59) starts a comment (R94), a
single quote (39) a character and a double quote (34) a string (R95). -/
def lexOpen (c : Char) (ts : List Token) : LexMode × List Token :=
  if c.isWhitespace then (.gap, ts)
  else if c.toNat = 44 then (.gap, .comma :: ts)
  else if c.toNat = 59 then (.comment, ts)
  else if c.toNat = 39 then (.quote, ts)
  else if c.toNat = 34 then (.text [], ts)
  else (.bare [c], ts)

/-- One character of the line; the tokens are kept last first. -/
def lexStep : LexMode × List Token → Char → LexMode × List Token
  | (.comment, ts), _ => (.comment, ts)
  | (.bad, ts), _ => (.bad, ts)
  | (.quote, ts), c => (.quoted c, ts)
  | (.quoted ch, ts), c => if c.toNat = 39 then (.gap, .char ch :: ts) else (.bad, ts)
  | (.text rev, ts), c => if c.toNat = 34 then (.gap, .text rev.reverse :: ts) else (.text (c :: rev), ts)
  | (.gap, ts), c => lexOpen c ts
  | (.bare rev, ts), c =>
    if c.isWhitespace ∨ c.toNat ∈ [44, 59, 39, 34] then lexOpen c (.bare rev.reverse :: ts)
    else (.bare (c :: rev), ts)

/-- The tokens of a line, its comment dropped. -/
def tokens (line : List Char) : Option (List Token) :=
  match line.foldl lexStep (.gap, []) with
  | (.gap, ts) | (.comment, ts) => some ts.reverse
  | (.bare rev, ts) => some (.bare rev.reverse :: ts).reverse
  | (.quote, _) | (.quoted _, _) | (.text _, _) | (.bad, _) => none

/-- The value of a decimal or hexadecimal digit. -/
def digitValue (c : Char) : Option Nat :=
  if 48 ≤ c.toNat ∧ c.toNat ≤ 57 then some (c.toNat - 48)
  else if 65 ≤ c.toNat ∧ c.toNat ≤ 70 then some (c.toNat - 55)
  else if 97 ≤ c.toNat ∧ c.toNat ≤ 102 then some (c.toNat - 87)
  else none

/-- The number the digits `cs` write after the value `n`. -/
def digitsFrom (base : Nat) : Nat → List Char → Option Nat
  | n, [] => some n
  | n, c :: cs => do
    let d ← digitValue c
    if d < base then digitsFrom base (base * n + d) cs else none

/-- A numeric literal: hexadecimal with `0x`, decimal otherwise (R95). -/
def numeral : List Char → Option Nat
  | [] => none
  | '0' :: 'x' :: cs => if cs.isEmpty then none else digitsFrom 16 0 cs
  | cs => digitsFrom 10 0 cs

/-- The 8-bit ASCII code of a character (R95). -/
def asciiCode (c : Char) : Option Nat := if c.toNat < 128 then some c.toNat else none

/-- An operand literal: a number or a character in single quotes (R95). -/
def literal : Token → Option Nat
  | .bare cs => numeral cs
  | .char c => asciiCode c
  | .text _ | .comma => none

/-- `<csr>`: a number or a name (R94). -/
def csrOperand : Token → Option Nat
  | .bare ['M', 'O', 'D', 'E'] => some 0
  | .bare ['W', 'R', 'A', 'P'] => some 1
  | .bare ['A', 'L', 'E', 'N'] => some 2
  | .bare ['S', 'T', 'A', 'T', 'U', 'S'] => some 3
  | .bare ['G', 'E', 'O', 'M'] => some 4
  | .bare ['A', 'C', 'C'] => some 5
  | .bare ['C', 'O', 'U', 'N', 'T'] => some 6
  | t => literal t

/-- `NONE` or a literal (R96). -/
def optionalOperand : Token → Option (Option Nat)
  | .bare ['N', 'O', 'N', 'E'] => some none
  | t => (literal t).map some

/-- The operands of a line, which commas separate. -/
def operandTokens : List Token → Option (List Token)
  | [] => some []
  | [t] => if t = .comma then none else some [t]
  | t :: .comma :: u :: rest =>
    if t = .comma then none else (operandTokens (u :: rest)).map (t :: ·)
  | _ => none

/-- The line a mnemonic and its operands write (R94, R96 to R98). -/
def lineOf (mnemonic : List Char) (operands : List Token) : Option AsmLine :=
  match mnemonic.map Char.toUpper, operands with
  | ['W', 'R', 'C', 'S', 'R'], [c, v] => do return .wrcsr (← csrOperand c) (← literal v)
  | ['R', 'D', 'C', 'S', 'R'], [c] => do return .rdcsr (← csrOperand c)
  | ['W', 'R', 'A', 'L', 'P', 'H', 'A'], [i, s] => do return .wralpha (← literal i) (← literal s)
  | ['S', 'T', 'A', 'R', 'T'], [] => some .start
  | ['P', 'U', 'S', 'H'], [b] => do return .push (← literal b)
  | ['E', 'N', 'D'], [] => some .endStream
  | ['R', 'D', 'E', 'R', 'R'], [] => some .rderr
  | ['W', 'R', 'E', 'R', 'R'], [] => some .wrerr
  | ['.', 'W', 'O', 'R', 'D'], [v] => do return .word (← literal v)
  | ['S', 'E', 'T', 'M', 'O', 'D', 'E'], [k, p] => do return .setMode (← literal k) (← optionalOperand p)
  | ['S', 'E', 'T', 'W', 'R', 'A', 'P'], [w] => do return .setWrap (← optionalOperand w)
  | ['L', 'O', 'A', 'D', 'A', 'L', 'P', 'H', 'A'], [.text s] => do return .loadAlpha (← s.mapM asciiCode)
  | ['C', 'H', 'U', 'N', 'K'], c :: r :: bs => do
    return .chunk (← literal c) (← literal r) (← bs.mapM literal)
  | ['E', 'N', 'C', 'O', 'D', 'E'], [.text s] => do return .encodeBytes (← s.mapM asciiCode)
  | ['E', 'N', 'C', 'O', 'D', 'E'], b :: bs => do return .encodeBytes (← (b :: bs).mapM literal)
  | _, _ => none

/-- The words of one line of text; a blank line or a comment has none (R94). -/
def assembleLine (line : List Char) : Option (List Word) := do
  match ← tokens line with
  | [] => some []
  | .bare m :: ts => lineWords (← lineOf m (← operandTokens ts))
  | _ => none

/-- The words of a text, line by line. -/
def assemble (text : List (List Char)) : Option (List Word) := do
  return (← text.mapM assembleLine).flatten

end Sys2Proof.Machine
end

