-- ==== Sys2Proof/WellFormed.lean ====
section
/-!
DEFINITION. A well-formed command: one whose operands pass the checks of 30_encoding.md R90 items 2 to 5. A command
that is not well-formed still runs: it raises ILLEGAL_COMMAND (60_exceptions.md R197).
-/

namespace Sys2Proof

/-- 30_encoding.md R90: no operand check fails in a build with parameters `p`. -/
abbrev Instr.WellFormed (i : Instr) (p : Params) : Prop := i.operandFault p = none

end Sys2Proof
end

