-- ==== Sys2Proof/Safety.lean ====
section
/-!
DEFINITION. What claims are stated in: the invariant between command steps (10_state.md R44 and the rules it rests on),
runs of several commands, the end of a session's run and its observation (70_reset_and_hazards.md R234), what the
collaborators may see of the channels (20_memory.md R69, 43_error_reports.md R185), and the closed forms of the encoder's
output (41_datapath.md R133 to R149, 42_stream.md R171).
-/

namespace Sys2Proof.Safety

open Sys2Proof.Machine

/-! ### The invariant between command steps -/

/-- What holds in every state between two steps. -/
structure Inv (s : State) : Prop where
  /-- Reserved bits of MODE, WRAP and ALEN read 0 (10_state.md R28, R31, R32). -/
  modeReserved : reservedClear .mode s.mode = true
  wrapReserved : reservedClear .wrap s.wrap = true
  alenReserved : reservedClear .alen s.alen = true
  /-- ALPHABET has ALPHA_MAX entries (R40). -/
  alphabetSize : s.alphabet.length = s.params.alphaMax
  /-- ACC is ACC_BITS wide (R20, R33). -/
  accWidth : s.acc.toNat < 2 ^ s.params.accBits
  /-- COL is WRAP_BITS wide (R20, R35). -/
  colWidth : s.col.toNat < 2 ^ (s.params.wrapBits : Nat)
  /-- ERR_CODE is NONE exactly outside ERROR (10_state.md R23, R44; 60_exceptions.md R190). -/
  codeNone : s.errCode = .none ↔ s.state ≠ .error
  /-- ACTIVE implies the configuration passed START's check (R44). -/
  config : s.state = .active → s.configValid = true
  /-- ACTIVE implies BYTE_CNT < C (R34, R44). -/
  count : s.state = .active → s.byteCnt.toNat < s.chunk
  /-- ACTIVE and EN = 1 imply COL < WIDTH (R35, R44). -/
  column : s.state = .active → s.wrapEn = true → s.col.toNat < s.wrapWidth.toNat
  /-- ACTIVE and EN = 0 imply COL = 0 (R35). -/
  noColumn : s.state = .active → s.wrapEn = false → s.col = 0
  /-- In ACTIVE a bit of ACC may be 1 only inside the bytes read so far (R33). -/
  accBits : s.state = .active → ∀ i, s.acc.getLsbD i = true →
    8 * (s.chunk - s.byteCnt.toNat) ≤ i ∧ i < 8 * s.chunk
  /-- In IDLE and DONE the datapath is clear (R50; 42_stream.md R167). -/
  quiet : s.state = .idle ∨ s.state = .done → s.acc = 0 ∧ s.byteCnt = 0 ∧ s.col = 0

/-! ### Runs -/

/-- Commands one after the other, each on the state the one before it left (20_memory.md R68). -/
def execAll : List Instr → State → Host.Outcome State Fault Refusal
  | [], s => .next s
  | i :: is, s =>
    match exec i s with
    | .next t => execAll is t
    | .fault r => .fault r
    | .refused r => .refused r

/-- The commands of one encode call on the bytes `xs` (30_encoding.md R98 after START). -/
def sessionCommands (xs : List Byte) : List Instr := .start :: xs.map .push ++ [.endStream]

/-- A session's run has ended: STATE is DONE or ERROR (70_reset_and_hazards.md R234). -/
def runEnded (s : State) : Bool := s.state == .done || s.state == .error

/-- The observation of a run from `s` to `t`: the characters appended to OUT and the final STATUS
(70_reset_and_hazards.md R234). -/
def observation (s t : State) : List Byte × Word := (t.out.drop s.out.length, t.statusWord)

/-! ### What the collaborators see -/

/-- What the sink may have delivered, having acknowledged `acked` characters: any prefix of OUT at least that long
(43_error_reports.md R185; 93 U4; log entry 11). -/
def Delivered (acked : Nat) (s : State) (d : List Byte) : Prop := d <+: s.out ∧ acked ≤ d.length

/-- What an observer of both channels may see: any interleaving that keeps each channel's own order
(20_memory.md R69; 93 U5; log entry 12). -/
def Interleaving (s : State) (seen : List (Byte ⊕ Word)) : Prop :=
  seen.filterMap Sum.getLeft? = s.out ∧ seen.filterMap Sum.getRight? = s.resp

/-! ### Closed forms of the output -/

/-- ceil(a / b) (00_scope.md R9). -/
def ceilDiv (a b : Nat) : Nat := (a + b - 1) / b

/-- Bytes packed into one number, most significant byte first (41_datapath.md R133). -/
def packBytes (bs : List Byte) : Nat := bs.foldl (fun a b => 256 * a + b.toNat) 0

/-- Group `j` of `k` bits of a `width`-bit number, most significant group first: `(P >> (width - k*(j+1))) & (2^k - 1)`
(41_datapath.md R137). -/
def groupAt (width k value j : Nat) : Nat := value / 2 ^ (width - k * (j + 1)) % 2 ^ k

/-- The newline, of code `nl`, after the symbol that brings the count of symbols on the lines to `p` (41_datapath.md R149). -/
def newlineAfter (nl : Byte) (en : Bool) (width p : Nat) : List Byte :=
  if en = true ∧ p % width = 0 then [nl] else []

/-- `n` symbols from column `col`, each followed by its newline, if any (41_datapath.md R144, R149). -/
def lines (nl : Byte) (en : Bool) (width col n : Nat) (symbol : Nat → Byte) : List Byte :=
  (List.range n).flatMap fun j => symbol j :: newlineAfter nl en width (col + j + 1)

/-- The column after `n` symbols from column `col` (41_datapath.md R149, R146). -/
def columnAfter (en : Bool) (width col n : Nat) : Nat := if en then (col + n) % width else col

/-- The symbol at position `j` of the `width`-bit number `value` of which `r` bytes were read: real when `j * k < r * 8`,
the pad symbol otherwise (41_datapath.md R140, R142). -/
def symbolAt (s : State) (width r value j : Nat) : Byte :=
  if j * s.bitWidth < r * 8 then s.symbol (groupAt width s.bitWidth value j) else s.padSym

/-- What one chunk packed as `value` with `r` bytes read adds to OUT (41_datapath.md R149). -/
def chunkText (s : State) (r value : Nat) : List Byte :=
  lines s.params.nlChar s.wrapEn s.wrapWidth.toNat s.col.toNat s.syms (symbolAt s (8 * s.chunk) r value)

/-- The number of chunks of a stream of `n` bytes (42_stream.md R171). -/
def chunkCount (s : State) (n : Nat) : Nat := ceilDiv n s.chunk

/-- What a whole session on `xs` adds to OUT (42_stream.md R171): the bytes, zero-filled to whole chunks, read as one
number `k` bits at a time, the symbols that start beyond the input replaced by the pad symbol, and the lines ended. -/
def sessionText (s : State) (xs : List Byte) : List Byte :=
  let bytes := chunkCount s xs.length * s.chunk
  let value := packBytes xs * 256 ^ (bytes - xs.length)
  let total := s.syms * chunkCount s xs.length
  lines s.params.nlChar s.wrapEn s.wrapWidth.toNat 0 total (symbolAt s (8 * bytes) xs.length value)
    ++ if s.wrapEn = true ∧ total % s.wrapWidth.toNat ≠ 0 then [s.params.nlChar] else []

end Sys2Proof.Safety
end

