-- ==== Sys2Proof/Certificates/Slice0/Obligations.lean ====
section
/-!
DEFINITION. The statements for the provers, taken from the spec's numbered rules. Each docstring names the rules a
statement formalises. The tables and readings of a word that the statements need are written here from the spec's own
text, apart from the model's decoder and meanings.
-/

namespace Sys2Proof.Claims

open Sys2Proof.Machine

/-! ### The spec's tables -/

/-- A command's mnemonic (30_encoding.md R82). -/
def mnemonic : Instr → String
  | .wrcsr _ _ => "WRCSR"
  | .rdcsr _ => "RDCSR"
  | .wralpha _ _ => "WRALPHA"
  | .start => "START"
  | .push _ => "PUSH"
  | .endStream => "END"
  | .rderr => "RDERR"
  | .wrerr => "WRERR"

/-- R82's rows: mnemonic, match, mask. -/
def opcodeTable : List (String × Word × Word) :=
  [("WRCSR", 0x10000000, 0xF0000000), ("RDCSR", 0x20000000, 0xF0FFFFFF),
   ("WRALPHA", 0x30000000, 0xFFFF0000), ("START", 0x40000000, 0xFFFFFFFF),
   ("PUSH", 0x50000000, 0xFFFFFF00), ("END", 0x60000000, 0xFFFFFFFF),
   ("RDERR", 0x70000000, 0xFFFFFFFF), ("WRERR", 0x80000000, 0xFFFFFFFF)]

/-- OPC = w[31:28] (R80). -/
def opc (w : Word) : Nat := w.toNat / 2 ^ 28

/-- `w[lo + len - 1 : lo]` as a number (00_scope.md R9). -/
def field (w : Word) (lo len : Nat) : Nat := w.toNat / 2 ^ lo % 2 ^ len

/-- 30_encoding.md R90: the five items, read off the word and the build's ALPHA_MAX alone. -/
def illegalWord (p : Params) (w : Word) : Prop :=
  -- 1: a reserved opcode, or a nonzero "zero" field
  opc w = 0 ∨ 9 ≤ opc w ∨ (opc w = 2 ∧ field w 0 24 ≠ 0) ∨ (opc w = 3 ∧ field w 16 12 ≠ 0) ∨
  (opc w = 5 ∧ field w 8 20 ≠ 0) ∨ (opc w ∈ [4, 6, 7, 8] ∧ field w 0 28 ≠ 0) ∨
  -- 2: WRCSR of a read-only or reserved CSR
  (opc w = 1 ∧ 3 ≤ field w 24 4) ∨
  -- 3: WRCSR of a nonzero reserved bit
  (opc w = 1 ∧ field w 24 4 = 0 ∧ (field w 4 4 ≠ 0 ∨ field w 9 7 ≠ 0)) ∨
  (opc w = 1 ∧ field w 24 4 = 1 ∧ field w 17 7 ≠ 0) ∨
  (opc w = 1 ∧ field w 24 4 = 2 ∧ field w 9 15 ≠ 0) ∨
  -- 4: RDCSR of a reserved CSR
  (opc w = 2 ∧ 7 ≤ field w 24 4) ∨
  -- 5: WRALPHA of an index with no entry
  (opc w = 3 ∧ p.alphaMax ≤ field w 8 8)

/-- `raise E` outside ERROR (60_exceptions.md R193), written as the two registers it sets. -/
def raised (s : State) (e : ErrCode) : State := { s with state := .error, errCode := e }

/-- What "executes" means for each command: the effect of its own rule (60_exceptions.md R197, last line). -/
def executed : Instr → State → State
  | .wrcsr csr value, s => wrcsrEffect csr value s
  | .rdcsr csr, s => rdcsrEffect csr s
  | .wralpha index sym, s => s.setAlphabet index.toNat sym
  | .start, s => startEffect s
  | .push b, s => pushEffect b s
  | .endStream, s => endEffect s
  | .rderr, s => raised s .ioErrorSource
  | .wrerr, s => raised s .ioErrorSink

/-- A cell of 60_exceptions.md R196's table. -/
inductive Verdict where
  | executes
  | raises (e : ErrCode)
  | ignored
  deriving DecidableEq, Repr

/-- 60_exceptions.md R196: the rows of the eight commands. -/
def legality (m : String) : SessionState → Verdict
  | .idle | .done =>
    if m ∈ ["PUSH", "END"] then .raises .sequenceError
    else if m = "RDERR" then .raises .ioErrorSource
    else if m = "WRERR" then .raises .ioErrorSink
    else .executes
  | .active =>
    if m ∈ ["WRCSR", "WRALPHA", "START"] then .raises .sequenceError
    else if m = "RDERR" then .raises .ioErrorSource
    else if m = "WRERR" then .raises .ioErrorSink
    else .executes
  | .error => if m ∈ ["PUSH", "END", "RDERR", "WRERR"] then .ignored else .executes

/-- A cell of R196 as the outcome of a command. -/
def verdictState (i : Instr) (s : State) : Verdict → State
  | .executes => executed i s
  | .raises e => raised s e
  | .ignored => s

/-- 60_exceptions.md R191: the codes each opcode can raise. -/
def codesOf : Nat → List ErrCode
  | 1 | 3 | 5 | 6 => [.illegalCommand, .sequenceError]
  | 2 => [.illegalCommand]
  | 4 => [.configError, .illegalCommand, .sequenceError]
  | 7 => [.ioErrorSource, .illegalCommand]
  | 8 => [.ioErrorSink, .illegalCommand]
  | _ => [.illegalCommand]

/-- The value of STATE (10_state.md R21). -/
def stateValue : SessionState → Nat
  | .idle => 0 | .active => 1 | .done => 2 | .error => 3

/-- The value of ERR_CODE (60_exceptions.md R190). -/
def codeValue : ErrCode → Nat
  | .none => 0 | .configError => 1 | .ioErrorSource => 2 | .ioErrorSink => 3
  | .illegalCommand => 4 | .sequenceError => 5

/-- The number an RDCSR of a CSR number returns (40_config.md R106; 10_state.md R36 to R38). -/
def csrValue (s : State) : Nat → Nat
  | 0 => s.mode.toNat
  | 1 => s.wrap.toNat
  | 2 => s.alen.toNat
  | 3 => stateValue s.state + 2 ^ 4 * codeValue s.errCode
  | 4 => chunkBytes s.bitWidth + 2 ^ 4 * symsPerChunk s.bitWidth
  | 5 => if s.params.accBits ≤ 32 then s.acc.toNat else (Config.accReadLayout s.params.accBits s.acc).toNat
  | 6 => s.byteCnt.toNat + 2 ^ 16 * s.col.toNat
  | _ => 0

/-- The wrap width is not already used up (10_state.md R35, R44). -/
def columnFits (s : State) : Prop := s.wrapEn = true → s.col.toNat < s.wrapWidth.toNat

/-- The reads of the document's chunk loop on `xs`: full reads of `c` bytes, then the rest (42_stream.md R172). -/
def reads (c : Nat) (xs : List Byte) : List (List Byte) :=
  ((List.range (xs.length / c)).map fun q => (xs.drop (q * c)).take c) ++ [xs.drop (xs.length / c * c)]

end Sys2Proof.Claims

open Sys2Proof Sys2Proof.Machine Sys2Proof.Safety Sys2Proof.Claims

/-! ## Encoding -/

/-- 30_encoding.md R89, R94: no bit of an encoding is dropped. -/
def Obligations.DecodingAnEncodedCommandReturnsIt : Prop :=
  ∀ i : Instr, decode (encode i) = .ok i

/-- 30_encoding.md R89, R94: each word has one meaning, and its command has one word. -/
def Obligations.EncodingADecodedWordReturnsIt : Prop :=
  ∀ (w : Word) (i : Instr), decode w = .ok i → encode i = w

/-- 30_encoding.md R82: a word matches a row exactly when it decodes to that row's command. -/
def Obligations.TableRowsMatchExactlyTheirCommands : Prop :=
  ∀ row ∈ opcodeTable, ∀ w : Word,
    w &&& row.2.2 = row.2.1 ↔ ∃ i, decode w = .ok i ∧ mnemonic i = row.1

/-- 30_encoding.md R81 to R89, on the words of 95_test_vectors.md section 2. -/
def Obligations.WrittenOutWordsDecode : Prop :=
  decode 0x103D0106 = .ok (.wrcsr 0 0x3D0106) ∧ decode 0x1101004C = .ok (.wrcsr 1 0x01004C) ∧
  decode 0x12000040 = .ok (.wrcsr 2 64) ∧ decode 0x23000000 = .ok (.rdcsr 3) ∧
  decode 0x3000195A = .ok (.wralpha 25 0x5A) ∧ decode 0x40000000 = .ok .start ∧
  decode 0x50000066 = .ok (.push 0x66) ∧ decode 0x60000000 = .ok .endStream ∧
  decode 0x70000000 = .ok .rderr ∧ decode 0x80000000 = .ok .wrerr

/-- 30_encoding.md R91: reserved opcodes raise ILLEGAL_COMMAND (with no effect in ERROR, R90); the all-zeros and the
all-ones word are among them. -/
def Obligations.ReservedOpcodesRaiseIllegalCommand : Prop :=
  (∀ (s : State) (w : Word) (rest : List Input), s.input = .word w :: rest → (opc w = 0 ∨ 9 ≤ opc w) →
    step s = .next (if s.state = .error then s.setInput rest else raised (s.setInput rest) .illegalCommand)) ∧
  opc 0x00000000 = 0 ∧ 9 ≤ opc 0xFFFFFFFF

/-- 30_encoding.md R90: a word raises ILLEGAL_COMMAND exactly when one of the five items holds, whatever the state but
ERROR, where it is ignored. -/
def Obligations.IllegalCommandIsRaisedExactlyByTheFiveItems : Prop :=
  ∀ (s : State) (w : Word) (rest : List Input), s.input = .word w :: rest →
    (illegalWord s.params w → step s =
      .next (if s.state = .error then s.setInput rest else raised (s.setInput rest) .illegalCommand)) ∧
    (¬ illegalWord s.params w → s.errCode ≠ .illegalCommand →
      ∃ t, step s = .next t ∧ t.errCode ≠ .illegalCommand)

/-! ## The step -/

/-- 60_exceptions.md R197, 10_state.md R48: a step takes the next word off CMD and runs the command it decodes to. The
other two clauses are the model's own inputs: asserting `rst` between two commands (log entry 14), and with no input the
block holds its state (R210; log entry 4). -/
def Obligations.StepRunsTheDecodedCommand : Prop :=
  (∀ (s : State) (w : Word) (rest : List Input) (i : Instr),
    s.input = .word w :: rest → decode w = .ok i → step s = exec i { s with input := rest }) ∧
  (∀ (s : State) (rest : List Input), s.input = .rst :: rest →
    step s = .next { State.resetOf s.params with
      alphabet := alphabetAtReset s.params (s.resets + 1), input := rest, resets := s.resets + 1 }) ∧
  (∀ s : State, s.input = [] → step s = .next s)

/-- 60_exceptions.md R197: Step(w), its checks in order of priority. -/
def Obligations.StepFollowsTheOrderOfChecks : Prop :=
  ∀ (s : State) (w : Word) (rest : List Input), s.input = .word w :: rest →
    let s' : State := { s with input := rest }
    (illegalWord s.params w → step s = .next (if s.state = .error then s' else raised s' .illegalCommand)) ∧
    (¬ illegalWord s.params w → ∃ i, decode w = .ok i ∧ step s = .next (
      if s.state = .error ∧ mnemonic i ∈ ["PUSH", "END", "RDERR", "WRERR"] then s'
      else if s.state = .active ∧ mnemonic i ∈ ["WRCSR", "WRALPHA", "START"] then raised s' .sequenceError
      else if s.state ∈ [.idle, .done] ∧ mnemonic i ∈ ["PUSH", "END"] then raised s' .sequenceError
      else executed i s'))

/-- 60_exceptions.md R196: the legality table, every command in every state, and a word that fails R90. -/
def Obligations.CommandsFollowTheLegalityTable : Prop :=
  (∀ (i : Instr) (s : State), i.WellFormed s.params →
    exec i s = .next (verdictState i s (legality (mnemonic i) s.state))) ∧
  (∀ (s : State) (w : Word) (rest : List Input), s.input = .word w :: rest → illegalWord s.params w →
    (s.state ≠ .error → step s = .next (raised { s with input := rest } .illegalCommand)) ∧
    (s.state = .error → step s = .next { s with input := rest }))

/-- 70_reset_and_hazards.md R236: the block cannot hang; every step, on a legal command or not, ends in a next state. -/
def Obligations.EveryStepAnswersANextState : Prop :=
  (∀ s : State, ∃ t, step s = .next t) ∧ (∀ (i : Instr) (s : State), ∃ t, exec i s = .next t) ∧
  (∀ k, symsPerChunk k ≤ 8)

/-! ## Errors -/

/-- 60_exceptions.md R193, R194: `raise`, outside and inside ERROR; a step that enters ERROR has no other effect, so it
changes neither a register but STATE and ERR_CODE nor a channel; a START that succeeds clears the datapath. -/
def Obligations.AnErrorChangesOnlyStateAndCode : Prop :=
  (∀ (s : State) (e : ErrCode),
    (s.state ≠ .error → s.raise e = { s with state := .error, errCode := e }) ∧
    (s.state = .error → s.raise e = s)) ∧
  (∀ (s t : State) (w : Word) (rest : List Input), s.input = .word w :: rest → step s = .next t →
    s.state ≠ .error → t.state = .error → t = raised { s with input := rest } t.errCode) ∧
  (∀ s t : State, exec .start s = .next t → t.state = .active →
    t.acc = 0 ∧ t.byteCnt = 0 ∧ t.col = 0)

/-- 60_exceptions.md R191: which opcodes can raise which codes, and that each can.
The spec marks this as its own derivation. -/
def Obligations.CommandsRaiseOnlyTheirCodes : Prop :=
  (∀ (s t : State) (w : Word) (rest : List Input), s.input = .word w :: rest → step s = .next t →
    s.state ≠ .error → t.state = .error → t.errCode ∈ codesOf (opc w)) ∧
  (∀ n < 16, ∀ e ∈ codesOf n, ∃ (s t : State) (w : Word) (rest : List Input),
    s.input = .word w :: rest ∧ opc w = n ∧ step s = .next t ∧
    s.state ≠ .error ∧ t.state = .error ∧ t.errCode = e)

/-- 60_exceptions.md R198: what happens in ERROR. -/
def Obligations.ErrorStateKeepsTheFirstCode : Prop :=
  ∀ s : State, s.state = .error →
    (∀ e, s.raise e = s) ∧
    (∀ b, exec (.push b) s = .next s) ∧ exec .endStream s = .next s ∧
    exec .rderr s = .next s ∧ exec .wrerr s = .next s ∧
    (∀ i : Instr, ¬ i.WellFormed s.params → exec i s = .next s) ∧
    (∀ (w : Word) (rest : List Input), s.input = .word w :: rest → illegalWord s.params w →
      step s = .next { s with input := rest }) ∧
    (∀ csr value, (Instr.wrcsr csr value).WellFormed s.params →
      exec (.wrcsr csr value) s = .next (wrcsrEffect csr value s)) ∧
    (∀ csr, (Instr.rdcsr csr).WellFormed s.params → exec (.rdcsr csr) s = .next (rdcsrEffect csr s)) ∧
    (∀ index sym, (Instr.wralpha index sym).WellFormed s.params →
      exec (.wralpha index sym) s = .next (s.setAlphabet index.toNat sym)) ∧
    (∀ i t, exec i s = .next t → t.errCode ≠ s.errCode → i = .start) ∧
    ∃ t, exec .start s = .next t ∧ t.errCode = if s.configValid then .none else .configError

/-- 60_exceptions.md R199: only a valid START and reset leave ERROR. -/
def Obligations.OnlyAValidStartOrResetLeavesError : Prop :=
  ∀ s t : State, step s = .next t → s.state = .error → t.state ≠ .error →
    (∃ (w : Word) (rest : List Input), s.input = .word w :: rest ∧ decode w = .ok .start ∧
      s.configValid = true ∧
      t = { s with input := rest, state := .active, errCode := .none, acc := 0, byteCnt := 0, col := 0 }) ∨
    (∃ rest, s.input = .rst :: rest ∧ t.state = .idle)

/-- 10_state.md R22: STATE changes only by these four transitions.
The spec marks this as its own derivation. -/
def Obligations.StateChangesOnlyByFourTransitions : Prop :=
  ∀ s t : State, step s = .next t → t.state ≠ s.state →
    (∃ (w : Word) (rest : List Input), s.input = .word w :: rest ∧
      ((decode w = .ok .start ∧ s.state ≠ .active ∧
          (t.state = .active ∨ t.state = .error ∧ t.errCode = .configError)) ∨
       (decode w = .ok .endStream ∧ s.state = .active ∧ t.state = .done) ∨
       (s.state ≠ .error ∧ ∃ e, e ≠ .none ∧ t = raised { s with input := rest } e))) ∨
    (∃ rest, s.input = .rst :: rest ∧ t.state = .idle)

/-- 60_exceptions.md R203: from an I/O error on, nothing is emitted until a START or reset.
The spec marks this as its own derivation. -/
def Obligations.NothingIsEmittedAfterAnIOError : Prop :=
  ∀ (s t : State) (i : Instr) (is : List Instr), i = .rderr ∨ i = .wrerr → (∀ x ∈ is, x ≠ .start) →
    execAll (i :: is) s = .next t → t.out = s.out ∧ t.state = .error

/-- 10_state.md R49, 60_exceptions.md R200: the level outputs follow STATE, and both fall when START succeeds or reset
occurs. -/
def Obligations.LevelOutputsFollowState : Prop :=
  (∀ s : State, (s.errO = true ↔ s.state = .error) ∧ (s.doneO = true ↔ s.state = .done)) ∧
  (∀ s t : State, exec .start s = .next t → t.state = .active → t.errO = false ∧ t.doneO = false) ∧
  (∀ s t : State, ∀ rest, s.input = .rst :: rest → step s = .next t → t.errO = false ∧ t.doneO = false)

/-! ## Reset and the invariant -/

/-- 10_state.md R50, 70_reset_and_hazards.md R220: reset, from any state, between two inputs; a START before any
configuration raises CONFIG_ERROR; no other step sets IDLE. -/
def Obligations.ResetSetsEveryPieceOfState : Prop :=
  (∀ (s : State) (rest : List Input), s.input = .rst :: rest → ∃ t, step s = .next t ∧
    t.state = .idle ∧ t.errCode = .none ∧ t.mode = 0 ∧ t.wrap = 0 ∧ t.alen = 0 ∧ t.acc = 0 ∧
    t.byteCnt = 0 ∧ t.col = 0 ∧ t.out = [] ∧ t.resp = [] ∧ t.errO = false ∧ t.doneO = false ∧
    t.params = s.params ∧ t.input = rest ∧ exec .start t = .next (raised t .configError)) ∧
  (∀ s t : State, step s = .next t → t.state = .idle → s.state = .idle ∨ ∃ rest, s.input = .rst :: rest)

/-- 10_state.md R50: the state right after reset meets the invariant, in every build. -/
def Obligations.ResetStateMeetsTheInvariant : Prop :=
  Inv State.reset ∧ ∀ p : Params, Inv (State.resetOf p)

/-- 10_state.md R33 to R35, R44: every step keeps the invariant, from every state that meets it. -/
def Obligations.EveryStepKeepsTheInvariant : Prop :=
  ∀ s t : State, Inv s → step s = .next t → Inv t

/-- 10_state.md R44: the four invariants hold between command steps, in every build, whatever the environment sends.
The spec marks this as its own derivation. -/
def Obligations.InvariantsHoldBetweenCommandSteps : Prop :=
  ∀ (p : Params) (inputs : List Input) (n : Nat) (t : State),
    Sys2Proof.core.run n { State.resetOf p with input := inputs } = .next t →
    (t.state = .active → t.configValid = true) ∧
    (t.state = .active → t.byteCnt.toNat < chunkBytes t.bitWidth) ∧
    (t.state = .active → t.wrapEn = true → t.col.toNat < t.wrapWidth.toNat) ∧
    (t.state ≠ .error → t.errCode = .none)

/-! ## The configuration commands -/

/-- 40_config.md R102, R103: WRCSR writes the register it names, with no check of the value's meaning; its two errors
write nothing, and both are ignored in ERROR. -/
def Obligations.WrcsrWritesTheRegisterItNames : Prop :=
  ∀ (s : State) (csr : BitVec 4) (value : BitVec 24),
    ((Instr.wrcsr csr value).WellFormed s.params →
      (s.state = .active →
        exec (.wrcsr csr value) s = .next { s with state := .error, errCode := .sequenceError }) ∧
      (s.state ≠ .active → csr = 0 → exec (.wrcsr csr value) s = .next { s with mode := value }) ∧
      (s.state ≠ .active → csr = 1 → exec (.wrcsr csr value) s = .next { s with wrap := value }) ∧
      (s.state ≠ .active → csr = 2 → exec (.wrcsr csr value) s = .next { s with alen := value })) ∧
    ((Instr.wrcsr csr value).WellFormed s.params ↔
      ¬ (3 ≤ csr.toNat ∨ (csr = 0 ∧ value &&& 0x00FEF0 ≠ 0) ∨ (csr = 1 ∧ value &&& 0xFE0000 ≠ 0) ∨
        (csr = 2 ∧ value &&& 0xFFFE00 ≠ 0))) ∧
    (¬ (Instr.wrcsr csr value).WellFormed s.params →
      exec (.wrcsr csr value) s = .next (if s.state = .error then s else raised s .illegalCommand))

/-- 40_config.md R106, R107, 10_state.md R36, R38: RDCSR in every state, its value as a number, and its word; a reserved
CSR raises ILLEGAL_COMMAND, in ERROR it is ignored, and either way nothing is appended; a nonzero `w[23:0]` is illegal. -/
def Obligations.RdcsrAppendsTheRegistersValue : Prop :=
  (∀ (s : State) (csr : BitVec 4),
    (csr.toNat < 7 → exec (.rdcsr csr) s =
      .next { s with resp := s.resp ++ [BitVec.ofNat 32 (csrValue s csr.toNat)] }) ∧
    (csr.toNat < 7 → Inv s → csrValue s csr.toNat < 2 ^ 32) ∧
    encode (.rdcsr csr) = 0x20000000#32 ||| (csr.setWidth 32 <<< 24) ∧
    (7 ≤ csr.toNat →
      exec (.rdcsr csr) s = .next (if s.state = .error then s else raised s .illegalCommand))) ∧
  (∀ w : Word, opc w = 2 → field w 0 24 ≠ 0 → ∀ i, decode w ≠ .ok i)

/-- 20_memory.md R67: reading a CSR has no side effect, so a second read gives the same word. -/
def Obligations.ReadingARegisterIsIdempotent : Prop :=
  ∀ (s : State) (csr : BitVec 4), csr.toNat < 7 → ∃ v,
    exec (.rdcsr csr) s = .next { s with resp := s.resp ++ [v] } ∧
    exec (.rdcsr csr) { s with resp := s.resp ++ [v] } = .next { s with resp := s.resp ++ [v, v] }

/-- 40_config.md R110, R111: WRALPHA writes its entry and no other, in ERROR too; its two errors change no entry. -/
def Obligations.WralphaWritesItsEntryAlone : Prop :=
  (∀ (s : State) (index sym : Byte),
    (index.toNat < s.params.alphaMax → s.state = .active →
      exec (.wralpha index sym) s = .next { s with state := .error, errCode := .sequenceError }) ∧
    (index.toNat < s.params.alphaMax → s.state ≠ .active → ∃ t, exec (.wralpha index sym) s = .next t ∧
      t = { s with alphabet := t.alphabet } ∧
      (s.alphabet.length = s.params.alphaMax →
        ∀ j : Nat, t.alphabet[j]? = if j = index.toNat then some sym else s.alphabet[j]?)) ∧
    (s.params.alphaMax ≤ index.toNat →
      exec (.wralpha index sym) s = .next (if s.state = .error then s else raised s .illegalCommand)) ∧
    encode (.wralpha index sym) = 0x30000000#32 ||| (index.setWidth 32 <<< 8) ||| sym.setWidth 32) ∧
  (∀ w : Word, opc w = 3 → field w 16 12 ≠ 0 → ∀ i, decode w ≠ .ok i)

/-- 40_config.md R116: the four conditions of ConfigValid. That WIDTH is the low WRAP_BITS bits of WRAP in a build where
those are fewer than 16 is the model's reading (log entry 20). -/
def Obligations.ConfigValidIsTheFourConditions : Prop :=
  ∀ s : State,
    let k := s.mode.toNat % 16
    s.configValid = true ↔
      k ∈ s.params.supportedK ∧ s.alen.toNat % 512 = 2 ^ k ∧
      (chunkBytes k = 1 ∨ s.mode.toNat / 2 ^ 8 % 2 = 1) ∧
      (s.wrap.toNat / 2 ^ 16 % 2 = 0 ∨ 1 ≤ s.wrap.toNat % 2 ^ (s.params.wrapBits : Nat))

/-- 40_config.md R115, R117, R118: START in ACTIVE raises SEQUENCE_ERROR; in IDLE, DONE and ERROR the configuration check
decides between CONFIG_ERROR, which replaces an earlier code, and a session with a clear datapath. -/
def Obligations.StartChecksTheConfiguration : Prop :=
  ∀ s : State,
    (s.state = .active → exec .start s = .next { s with state := .error, errCode := .sequenceError }) ∧
    (s.state ≠ .active → s.configValid = false →
      exec .start s = .next { s with state := .error, errCode := .configError }) ∧
    (s.state ≠ .active → s.configValid = true →
      exec .start s =
        .next { s with state := .active, errCode := .none, acc := 0, byteCnt := 0, col := 0 })

/-- 10_state.md R43: the configuration does not change in ACTIVE; a WRCSR or WRALPHA there raises SEQUENCE_ERROR. -/
def Obligations.ConfigurationIsFixedInASession : Prop :=
  (∀ (s t : State) (w : Word) (rest : List Input), s.input = .word w :: rest → s.state = .active →
    step s = .next t →
    t.mode = s.mode ∧ t.wrap = s.wrap ∧ t.alen = s.alen ∧ t.alphabet = s.alphabet) ∧
  (∀ (s : State) (i : Instr), s.state = .active → i.WellFormed s.params →
    (∃ csr value, i = .wrcsr csr value) ∨ (∃ index sym, i = .wralpha index sym) →
    exec i s = .next (raised s .sequenceError))

/-- 10_state.md R51: only WRCSR, WRALPHA and reset change configuration; START clears the datapath. -/
def Obligations.ConfigurationSurvivesAllButItsOwnCommands : Prop :=
  (∀ (s t : State) (w : Word) (rest : List Input), s.input = .word w :: rest → step s = .next t →
    ((∀ csr value, decode w ≠ .ok (.wrcsr csr value)) →
      t.mode = s.mode ∧ t.wrap = s.wrap ∧ t.alen = s.alen) ∧
    ((∀ index sym, decode w ≠ .ok (.wralpha index sym)) → t.alphabet = s.alphabet)) ∧
  (∀ s t : State, exec .start s = .next t → t.state = .active → s.state ≠ .active →
    t.acc = 0 ∧ t.byteCnt = 0 ∧ t.col = 0)

/-- Host order of 70_reset_and_hazards.md R223, steps 1 to 5, through the pseudo-instructions of 30_encoding.md R96: it
starts a session from every state but ACTIVE, with the alphabet loaded. -/
def Obligations.BootSequenceStartsASession : Prop :=
  ∀ (s : State) (k : Nat) (pad : Byte) (width : Option (BitVec 16)) (alphabet : List Byte)
    (c1 c2 c3 : List Instr),
    s.state ≠ .active → k ∈ s.params.supportedK → alphabet.length = 2 ^ k →
    (∀ w ∈ width, w ≠ 0 ∧ w.toNat < 2 ^ (s.params.wrapBits : Nat)) →
    lineCommands (.setMode k (some pad.toNat)) = some c1 →
    lineCommands (.setWrap (width.map BitVec.toNat)) = some c2 →
    lineCommands (.loadAlpha (alphabet.map BitVec.toNat)) = some c3 →
    ∃ t, execAll (c1 ++ c2 ++ c3 ++ [.start]) s = .next t ∧
      t.state = .active ∧ t.errCode = .none ∧ t.bitWidth = k ∧ t.padSym = pad ∧
      t.wrapEn = width.isSome ∧ (∀ w ∈ width, t.wrapWidth = w) ∧
      (s.alphabet.length = s.params.alphaMax → ∀ (i : Nat) (h : i < alphabet.length), t.symbol i = alphabet[i]) ∧
      t.acc = 0 ∧ t.byteCnt = 0 ∧ t.col = 0 ∧ t.out = s.out

/-! ## The datapath -/

/-- 00_scope.md R8 and 10_state.md R36: in every state GEOM reads the geometry of the bit width in MODE, supported or
not, and 0 for a width outside 1 to 8; the geometry's two forms and its table. The second form is the spec's own
derivation. -/
def Obligations.GeomReadsTheGeometryOfTheBitWidth : Prop :=
  (∀ s : State, ∃ v : Word, exec (.rdcsr 4) s = .next { s with resp := s.resp ++ [v] } ∧
    let k := s.mode.toNat % 16
    (1 ≤ k ∧ k ≤ 8 → v.toNat % 2 ^ 4 = chunkBytes k ∧ v.toNat / 2 ^ 4 = symsPerChunk k) ∧
    (k = 0 ∨ 9 ≤ k → v = 0)) ∧
  (∀ k, 1 ≤ k → k ≤ 8 →
    chunkBytes k = Nat.lcm k 8 / 8 ∧ symsPerChunk k = 8 * chunkBytes k / k ∧
    chunkBytes k = k / Nat.gcd k 8 ∧ symsPerChunk k = 8 / Nat.gcd k 8 ∧
    k * symsPerChunk k = 8 * chunkBytes k) ∧
  [1, 2, 3, 4, 5, 6, 7, 8].map (fun k => (2 ^ k, chunkBytes k, symsPerChunk k)) =
    [(2, 1, 8), (4, 1, 4), (8, 3, 8), (16, 1, 2), (32, 5, 8), (64, 3, 4), (128, 7, 8), (256, 1, 1)]

/-- 41_datapath.md R132: AccInsert sets the field of its byte and no other bit of ACC. -/
def Obligations.AccInsertSetsItsByteAlone : Prop :=
  ∀ (s : State) (b : Byte), s.byteCnt.toNat < s.chunk →
    let m := s.byteCnt.toNat
    let t := s.accInsert b
    t = { s with acc := t.acc, byteCnt := BitVec.ofNat 3 (m + 1) } ∧
    (∀ i < 56, t.acc.getLsbD i =
      if 8 * (s.chunk - m - 1) ≤ i ∧ i < 8 * (s.chunk - m) then b.getLsbD (i - 8 * (s.chunk - m - 1))
      else s.acc.getLsbD i)

/-- 41_datapath.md R133, R134: the packed word of the bytes inserted, most significant byte first, zero where none was
read.
The spec marks this as its own derivation. -/
def Obligations.PackedWordIsBigEndian : Prop :=
  ∀ (s : State) (bs : List Byte), s.acc = 0 → s.byteCnt = 0 → bs.length ≤ s.chunk →
    (bs.foldl State.accInsert s).packed.toNat =
      ∑ i : Fin bs.length, bs[i].toNat * 2 ^ (8 * (s.chunk - 1 - i)) ∧
    (bs.foldl State.accInsert s).byteCnt.toNat = bs.length

/-- 41_datapath.md R137: the index of position `j` after `j` left shifts, in closed form; it is below 2^k; and the groups
cover the word exactly.
The spec marks this as its own derivation. -/
def Obligations.ExtractedIndexHasItsClosedForm : Prop :=
  ∀ (k c n : Nat) (p : BitVec (8 * c)), 1 ≤ k → k * n = 8 * c →
    (∀ j < n,
      topBits ((fun sh : BitVec (8 * c) => sh <<< k)^[j] p) k =
        (p.toNat >>> (8 * c - k * (j + 1))) &&& (2 ^ k - 1) ∧
      topBits ((fun sh : BitVec (8 * c) => sh <<< k)^[j] p) k < 2 ^ k) ∧
    p.toNat = ∑ j ∈ Finset.range n, groupAt (8 * c) k p.toNat j * 2 ^ (8 * c - k * (j + 1))

/-- 41_datapath.md R141, R143: the real positions are exactly the first ceil(8r/k), there is no padding in a full chunk
or when C = 1, and the table of the supported widths.
The spec marks this as its own derivation. -/
def Obligations.RealPositionsAreTheFirstOnes : Prop :=
  (∀ k r j, 1 ≤ k → k ≤ 8 →
    (isReal k r j = true ↔ j < ceilDiv (8 * r) k) ∧
    (r ≤ chunkBytes k → ceilDiv (8 * r) k ≤ symsPerChunk k) ∧
    (j < symsPerChunk k → isReal k (chunkBytes k) j = true) ∧
    (chunkBytes k = 1 → 1 ≤ r → j < symsPerChunk k → isReal k r j = true)) ∧
  (∀ row ∈ [(1, 1, 8, 0), (3, 1, 3, 5), (3, 2, 6, 2), (3, 3, 8, 0), (4, 1, 2, 0), (6, 1, 2, 2), (6, 2, 3, 1),
      (6, 3, 4, 0)],
    ((List.range (symsPerChunk row.1)).filter (isReal row.1 row.2.1)).length = row.2.2.1 ∧
    ((List.range (symsPerChunk row.1)).filter (fun j => !isReal row.1 row.2.1 j)).length = row.2.2.2)

/-- 41_datapath.md R144, R146, R148: EmitSymbol and its column counter, and FinishLine. -/
def Obligations.LineWrapCounterCountsTheColumn : Prop :=
  (∀ (s : State) (ch : Byte),
    (s.wrapEn = false → s.emitSymbol ch = { s with out := s.out ++ [ch] }) ∧
    (s.wrapEn = true → s.col.toNat + 1 < s.wrapWidth.toNat →
      s.emitSymbol ch = { s with out := s.out ++ [ch], col := BitVec.ofNat 16 (s.col.toNat + 1) }) ∧
    (s.wrapEn = true → s.col.toNat + 1 = s.wrapWidth.toNat →
      s.emitSymbol ch = { s with out := s.out ++ [ch, s.params.nlChar], col := 0 })) ∧
  (∀ s : State, s.finishLine =
    if s.wrapEn = true ∧ s.col ≠ 0 then { s with out := s.out ++ [s.params.nlChar], col := 0 } else s)

/-- 41_datapath.md R142, R147: one EmitChunk in closed form: every position's character in order with the wrap newlines,
then the datapath cleared. -/
def Obligations.EmitChunkHasItsClosedForm : Prop :=
  ∀ (s : State) (r : Nat), 1 ≤ s.bitWidth → s.bitWidth ≤ 8 → columnFits s →
    s.emitChunk r =
      { s with
        out := s.out ++ chunkText s r (s.acc.toNat % 2 ^ (8 * s.chunk))
        col := BitVec.ofNat 16 (columnAfter s.wrapEn s.wrapWidth.toNat s.col.toNat s.syms)
        acc := 0
        byteCnt := 0 }

/-- 41_datapath.md R149: `n` symbols from column `col` bring floor((col + n) / W) newlines and end at column
(col + n) mod W; with wrap disabled there are no newlines. -/
def Obligations.NewlinesOfAChunkAreCounted : Prop :=
  ∀ (nl : Byte) (width col n : Nat) (f : Nat → Byte), col < width →
    (lines nl true width col n f).length = n + (col + n) / width ∧
    columnAfter true width col n = (col + n) % width ∧
    lines nl false width col n f = (List.range n).map f

/-! ## The stream commands -/

/-- 42_stream.md R160, R161: PUSH in a session stores its byte, most significant first, and emits nothing; the byte that
fills the chunk emits all its symbols and clears the datapath; either way STATE stays ACTIVE. Outside a session it raises
SEQUENCE_ERROR, in ERROR it is ignored, and a nonzero `w[27:8]` is no PUSH. -/
def Obligations.PushStoresItsByteOrEmitsTheChunk : Prop :=
  (∀ (s : State) (b : Byte), Inv s → s.state = .active →
    (s.byteCnt.toNat + 1 < s.chunk → exec (.push b) s = .next { s with
      acc := s.acc + BitVec.ofNat 56 (b.toNat * 2 ^ (8 * (s.chunk - 1 - s.byteCnt.toNat)))
      byteCnt := s.byteCnt + 1 }) ∧
    (s.byteCnt.toNat + 1 = s.chunk → exec (.push b) s = .next { s with
      out := s.out ++ chunkText s s.chunk (s.acc.toNat + b.toNat)
      col := BitVec.ofNat 16 (columnAfter s.wrapEn s.wrapWidth.toNat s.col.toNat s.syms)
      acc := 0
      byteCnt := 0 }) ∧
    (s.byteCnt.toNat + 1 < s.chunk ∨ s.byteCnt.toNat + 1 = s.chunk)) ∧
  (∀ (s : State) (b : Byte),
    (s.state = .idle ∨ s.state = .done → exec (.push b) s = .next (raised s .sequenceError)) ∧
    (s.state = .error → exec (.push b) s = .next s)) ∧
  (∀ b : Byte, encode (.push b) = 0x50000000#32 ||| b.setWidth 32) ∧
  (∀ w : Word, opc w = 5 → field w 8 20 ≠ 0 → ∀ i, decode w ≠ .ok i)

/-- 42_stream.md R165, R166, R167: END in a session flushes the short final chunk, ends an open line and the session;
outside a session it raises SEQUENCE_ERROR, in ERROR it is ignored, and a second END raises SEQUENCE_ERROR. -/
def Obligations.EndFlushesTheChunkAndEndsTheSession : Prop :=
  (∀ s : State, Inv s → s.state = .active →
    let short := 0 < s.byteCnt.toNat
    let column := if short then columnAfter s.wrapEn s.wrapWidth.toNat s.col.toNat s.syms else s.col.toNat
    exec .endStream s = .next { s with
      state := .done
      out := s.out ++ (if short then chunkText s s.byteCnt.toNat s.acc.toNat else [])
        ++ (if s.wrapEn = true ∧ column ≠ 0 then [s.params.nlChar] else [])
      acc := 0
      byteCnt := 0
      col := 0 }) ∧
  (∀ s : State,
    (s.state = .idle ∨ s.state = .done → exec .endStream s = .next (raised s .sequenceError)) ∧
    (s.state = .error → exec .endStream s = .next s)) ∧
  (∀ s t : State, s.state = .active → execAll [.endStream, .endStream] s = .next t →
    t.state = .error ∧ t.errCode = .sequenceError)

/-- 43_error_reports.md R180: RDERR from IDLE, ACTIVE and DONE, and in ERROR. -/
def Obligations.RderrRaisesIoErrorSource : Prop :=
  ∀ s : State,
    (s.state ≠ .error → exec .rderr s = .next { s with state := .error, errCode := .ioErrorSource }) ∧
    (s.state = .error → exec .rderr s = .next s) ∧ encode .rderr = 0x70000000

/-- 43_error_reports.md R184: WRERR from IDLE, ACTIVE and DONE, and in ERROR; no later PUSH or END emits. -/
def Obligations.WrerrRaisesIoErrorSink : Prop :=
  ∀ s : State,
    (s.state ≠ .error → exec .wrerr s = .next { s with state := .error, errCode := .ioErrorSink }) ∧
    (s.state = .error → exec .wrerr s = .next s) ∧
    (∀ (b : Byte) (t : State), exec .wrerr s = .next t →
      exec (.push b) t = .next t ∧ exec .endStream t = .next t)

/-! ## The channels -/

/-- 10_state.md R46: OUT only grows, by PUSH and END alone, and, in every state that meets the invariant, by the symbols
of the configured alphabet, pad symbols and newlines alone. -/
def Obligations.OutOnlyGrowsByEmittedCharacters : Prop :=
  State.reset.out = [] ∧
  (∀ (s t : State) (w : Word) (rest : List Input), s.input = .word w :: rest → step s = .next t →
    ∃ gained, t.out = s.out ++ gained ∧
      (Inv s → ∀ ch ∈ gained, ch = s.params.nlChar ∨ ch = s.padSym ∨
        ∃ i < 2 ^ s.bitWidth, s.alphabet[i]? = some ch) ∧
      (gained ≠ [] → s.state = .active ∧ (decode w = .ok .endStream ∨ ∃ b, decode w = .ok (.push b))))

/-- 10_state.md R47: RESP grows by one word per executed RDCSR and by nothing else. -/
def Obligations.RespGrowsByOneWordPerRdcsr : Prop :=
  State.reset.resp = [] ∧
  (∀ (s t : State) (w : Word) (rest : List Input), s.input = .word w :: rest → step s = .next t →
    (∀ csr : BitVec 4, csr.toNat < 7 → decode w = .ok (.rdcsr csr) → ∃ v, t.resp = s.resp ++ [v]) ∧
    ((∀ csr : BitVec 4, csr.toNat < 7 → decode w ≠ .ok (.rdcsr csr)) → t.resp = s.resp))

/-- 20_memory.md R77: a chunk's symbols reach OUT only by the command that completes it.
The spec marks this as its own derivation. -/
def Obligations.OutputIsCommittedByWholeChunks : Prop :=
  ∀ (s t : State) (w : Word) (rest : List Input), Inv s → s.input = .word w :: rest → step s = .next t →
    t.out ≠ s.out →
    (∃ b, decode w = .ok (.push b) ∧ s.byteCnt.toNat + 1 = s.chunk) ∨
    (decode w = .ok .endStream ∧ (0 < s.byteCnt.toNat ∨ t.out = s.out ++ [s.params.nlChar]))

/-- 43_error_reports.md R185: what the sink delivered stays a prefix of OUT, whatever commands follow. -/
def Obligations.DeliveredOutputStaysAPrefix : Prop :=
  ∀ (s t : State) (is : List Instr) (acked : Nat) (d : List Byte),
    Delivered acked s d → execAll is s = .next t → Delivered acked t d

/-! ## Frames -/

/-- What WRCSR, RDCSR and WRALPHA leave unchanged (40_config.md R102, R106, R110; 60_exceptions.md R193): STATE and
ERR_CODE change only where an error is raised, outside ERROR. -/
def Obligations.ConfigurationCommandsChangeOnlyTheirTarget : Prop :=
  (∀ (csr : BitVec 4) (value : BitVec 24) (s t : State), exec (.wrcsr csr value) s = .next t →
    t.params = s.params ∧ t.alphabet = s.alphabet ∧ t.acc = s.acc ∧ t.byteCnt = s.byteCnt ∧ t.col = s.col ∧
    t.out = s.out ∧ t.resp = s.resp ∧ t.input = s.input ∧ t.resets = s.resets ∧ (csr ≠ 0 → t.mode = s.mode) ∧
    (csr ≠ 1 → t.wrap = s.wrap) ∧ (csr ≠ 2 → t.alen = s.alen) ∧
    (t.state = s.state ∧ t.errCode = s.errCode ∨ s.state ≠ .error ∧ t.state = .error)) ∧
  (∀ (csr : BitVec 4) (s t : State), exec (.rdcsr csr) s = .next t →
    t.params = s.params ∧ t.mode = s.mode ∧ t.wrap = s.wrap ∧ t.alen = s.alen ∧ t.alphabet = s.alphabet ∧
    t.acc = s.acc ∧ t.byteCnt = s.byteCnt ∧ t.col = s.col ∧ t.out = s.out ∧ t.input = s.input ∧
    t.resets = s.resets ∧
    (t.state = s.state ∧ t.errCode = s.errCode ∨
      7 ≤ csr.toNat ∧ s.state ≠ .error ∧ t.state = .error ∧ t.resp = s.resp)) ∧
  (∀ (index sym : Byte) (s t : State), exec (.wralpha index sym) s = .next t →
    t.params = s.params ∧ t.mode = s.mode ∧ t.wrap = s.wrap ∧ t.alen = s.alen ∧ t.acc = s.acc ∧
    t.byteCnt = s.byteCnt ∧ t.col = s.col ∧ t.out = s.out ∧ t.resp = s.resp ∧ t.input = s.input ∧
    t.resets = s.resets ∧
    t.alphabet.length = s.alphabet.length ∧
    (∀ j : Nat, j ≠ index.toNat → t.alphabet[j]? = s.alphabet[j]?) ∧
    (t.state = s.state ∧ t.errCode = s.errCode ∨
      s.state ≠ .error ∧ t.state = .error ∧ t.alphabet = s.alphabet))

/-- What START, RDERR and WRERR leave unchanged (40_config.md R117, R118; 43_error_reports.md R180, R184). -/
def Obligations.SessionAndReportCommandsChangeOnlyTheirRegisters : Prop :=
  (∀ s t : State, exec .start s = .next t →
    t.params = s.params ∧ t.mode = s.mode ∧ t.wrap = s.wrap ∧ t.alen = s.alen ∧ t.alphabet = s.alphabet ∧
    t.out = s.out ∧ t.resp = s.resp ∧ t.input = s.input ∧ t.resets = s.resets ∧
    (t.state = .active ∨ t.state = .error ∧ t.acc = s.acc ∧ t.byteCnt = s.byteCnt ∧ t.col = s.col)) ∧
  (∀ (i : Instr) (s t : State), i = .rderr ∨ i = .wrerr → exec i s = .next t →
    t = { s with state := t.state, errCode := t.errCode } ∧ t.state = .error ∧ (s.state = .error → t = s))

/-- What PUSH and END leave unchanged (42_stream.md R160, R166, R167). -/
def Obligations.StreamCommandsChangeOnlyTheDatapathAndOut : Prop :=
  (∀ (b : Byte) (s t : State), exec (.push b) s = .next t →
    t.params = s.params ∧ t.mode = s.mode ∧ t.wrap = s.wrap ∧ t.alen = s.alen ∧ t.alphabet = s.alphabet ∧
    t.resp = s.resp ∧ t.input = s.input ∧ t.resets = s.resets ∧
    (t.state = s.state ∧ t.errCode = s.errCode ∨ (s.state = .idle ∨ s.state = .done) ∧ t.state = .error) ∧
    (s.state ≠ .active → t.acc = s.acc ∧ t.byteCnt = s.byteCnt ∧ t.col = s.col ∧ t.out = s.out)) ∧
  (∀ s t : State, exec .endStream s = .next t →
    t.params = s.params ∧ t.mode = s.mode ∧ t.wrap = s.wrap ∧ t.alen = s.alen ∧ t.alphabet = s.alphabet ∧
    t.resp = s.resp ∧ t.input = s.input ∧ t.resets = s.resets ∧
    (s.state = .active → t.state = .done ∧ t.errCode = s.errCode) ∧
    (s.state = .error → t.state = .error ∧ t.errCode = s.errCode) ∧
    (s.state ≠ .active → t.acc = s.acc ∧ t.byteCnt = s.byteCnt ∧ t.col = s.col ∧ t.out = s.out))

/-! ## Whole sessions -/

/-- 42_stream.md R171: START, a PUSH of each byte and END add exactly the text of the bytes read as one bit string,
from every state but ACTIVE whose configuration is valid. -/
def Obligations.SessionEmitsItsBytesAsOneBitString : Prop :=
  ∀ (s : State) (xs : List Byte), s.state ≠ .active → s.configValid = true →
    execAll (sessionCommands xs) s = .next { s with
      state := .done
      errCode := .none
      acc := 0
      byteCnt := 0
      col := 0
      out := s.out ++ sessionText s xs }

/-- 42_stream.md R171: the counts of symbols, real symbols, pads and newlines of a session, and where it ends a line. -/
def Obligations.SessionTextHasItsCounts : Prop :=
  ∀ (s : State) (xs : List Byte), s.configValid = true →
    let n := xs.length
    let k := s.bitWidth
    let total := s.syms * ceilDiv n s.chunk
    let r := n % s.chunk
    (sessionText s xs).length = total + (if s.wrapEn then ceilDiv total s.wrapWidth.toNat else 0) ∧
    total = ceilDiv (8 * n) k + (if r = 0 then 0 else s.syms - ceilDiv (8 * r) k) ∧
    (∀ width value j, symbolAt s width n value j =
      if j < ceilDiv (8 * n) k then s.symbol (groupAt width k value j) else s.padSym) ∧
    (s.wrapEn = true → 0 < n → (sessionText s xs).getLast? = some s.params.nlChar) ∧
    (n = 0 → sessionText s xs = [])

/-- 42_stream.md R171: with wrap enabled the output is lines of at most WIDTH symbols, every line but the last full, each
ended by one newline. -/
def Obligations.WrappedOutputIsLinesOfAtMostTheWidth : Prop :=
  ∀ (nl : Byte) (width total : Nat) (f : Nat → Byte), 0 < width →
    (lines nl true width 0 total f ++ if total % width ≠ 0 then [nl] else []) =
      (List.range (ceilDiv total width)).flatMap fun l =>
        ((List.range (min width (total - l * width))).map fun i => f (l * width + i)) ++ [nl]

/-- 42_stream.md R172, 30_encoding.md R97: the CHUNK expansions of the document's reads are the PUSH and END commands of
the stream. -/
def Obligations.ChunkReadsExpandToPushesAndEnd : Prop :=
  ∀ (c : Nat) (xs : List Byte), 0 < c → ∃ expansions,
    (reads c xs).mapM (fun bs => lineCommands (.chunk c bs.length (bs.map BitVec.toNat))) = some expansions ∧
    expansions.flatten = xs.map .push ++ [.endStream]

/-- 20_memory.md R68: the words of well-formed commands on CMD, stepped one at a time, do what their commands do one
after the other, and leave the inputs behind them. -/
def Obligations.SteppingEncodedCommandsRunsThemInOrder : Prop :=
  ∀ (is : List Instr) (s : State) (rest : List Input),
    ∃ t, execAll is { s with input := rest } = .next t ∧
      Sys2Proof.core.run is.length
        { s with input := is.map (fun i => Input.word (encode i)) ++ rest } = .next t ∧
      t.input = rest

/-! ## The assembler -/

/-- 30_encoding.md R94, R95: the word of each line, and that a literal that does not fit is an error. -/
def Obligations.AssembledLinesAreTheirWords : Prop :=
  (∀ csr value : Nat, lineWords (.wrcsr csr value) =
    if csr < 16 ∧ value < 2 ^ 24 then some [BitVec.ofNat 32 (0x10000000 + csr * 2 ^ 24 + value)] else none) ∧
  (∀ csr : Nat, lineWords (.rdcsr csr) =
    if csr < 16 then some [BitVec.ofNat 32 (0x20000000 + csr * 2 ^ 24)] else none) ∧
  (∀ index sym : Nat, lineWords (.wralpha index sym) =
    if index < 256 ∧ sym < 256 then some [BitVec.ofNat 32 (0x30000000 + index * 2 ^ 8 + sym)] else none) ∧
  (∀ b : Nat, lineWords (.push b) =
    if b < 256 then some [BitVec.ofNat 32 (0x50000000 + b)] else none) ∧
  (∀ w : Nat, lineWords (.word w) = if w < 2 ^ 32 then some [BitVec.ofNat 32 w] else none) ∧
  lineWords .start = some [0x40000000] ∧ lineWords .endStream = some [0x60000000] ∧
  lineWords .rderr = some [0x70000000] ∧ lineWords .wrerr = some [0x80000000]

/-- 30_encoding.md R96, R98: the expansions of SETMODE, SETWRAP and ENCODE. -/
def Obligations.PseudoInstructionsExpandAsStated : Prop :=
  (∀ (k : BitVec 4) (pad : Byte), lineCommands (.setMode k.toNat (some pad.toNat)) =
    some [.wrcsr 0 ((pad.setWidth 24 <<< 16) ||| (1 <<< 8) ||| k.setWidth 24)]) ∧
  (∀ k : BitVec 4, lineCommands (.setMode k.toNat none) = some [.wrcsr 0 (k.setWidth 24)]) ∧
  (∀ w : BitVec 16, lineCommands (.setWrap (some w.toNat)) =
    some [.wrcsr 1 ((1 <<< 16) ||| w.setWidth 24)]) ∧
  lineCommands (.setWrap none) = some [.wrcsr 1 0] ∧
  (∀ bs : List Byte, lineCommands (.encodeBytes (bs.map BitVec.toNat)) =
    some (bs.map .push ++ [.endStream]))

/-! ## The parameters of a build -/

/-- 00_scope.md R7: the parameters that follow from SUPPORTED_K, for every build; every subset of 1 to 8 is the SUPPORTED_K
of some build; and the defaults, which are the ones of the reset state. The two bounds are the room the model's registers
give. -/
def Obligations.ParametersFollowFromTheSupportedWidths : Prop :=
  (∀ (p : Params) (k : Nat), k ∈ p.supportedK →
    1 ≤ k ∧ k ≤ 8 ∧ chunkBytes k ≤ p.cMax ∧ 2 ^ k ≤ p.alphaMax) ∧
  (∀ p : Params, p.supportedK ≠ [] →
    (∃ k ∈ p.supportedK, p.cMax = chunkBytes k) ∧ ∃ k ∈ p.supportedK, p.alphaMax = 2 ^ k) ∧
  (∀ p : Params, p.accBits = 8 * p.cMax ∧ p.accBits ≤ 56 ∧ p.alphaMax ≤ 256) ∧
  (∀ ks : List Nat, (∀ k ∈ ks, 1 ≤ k ∧ k ≤ 8) → ∃ p : Params, p.supportedK = ks) ∧
  State.reset.params.supportedK = [1, 3, 4, 6] ∧ State.reset.params.cMax = 3 ∧
  State.reset.params.accBits = 24 ∧ State.reset.params.alphaMax = 64 ∧
  State.reset.params.wrapBits = 16 ∧ State.reset.params.nlChar = 0x0A

/-- 00_scope.md R7: the parameters are a build's own; no command and no reset changes one. -/
def Obligations.NoStepChangesTheParameters : Prop :=
  ∀ s t : State, step s = .next t → t.params = s.params
end

