-- ==== Sys2Proof/Laws/Config.lean ====
section
/-! SUPPORT. What the derived parameters of 00_scope.md R7 are, for every build, and the room their registers need. -/

namespace Sys2Proof.Laws.Config

open Sys2Proof.Machine

theorem le_largest {n : Nat} {ns : List Nat} (h : n ∈ ns) : n ≤ largest ns := by
  induction ns with
  | nil => simp at h
  | cons a ns ih =>
    rcases List.mem_cons.1 h with rfl | h
    · exact le_max_left ..
    · exact le_trans (ih h) (le_max_right ..)

theorem largest_le {b : Nat} {ns : List Nat} (h : ∀ n ∈ ns, n ≤ b) : largest ns ≤ b := by
  induction ns with
  | nil => exact Nat.zero_le b
  | cons a ns ih => exact max_le (h a (by simp)) (ih fun n hn => h n (by simp [hn]))

/-- SUPPORTED_K holds only widths from 1 to 8 (00_scope.md R7). -/
theorem mem_supportedK {p : Params} {k : Nat} : k ∈ p.supportedK ↔ k ∈ p.widths ∧ 1 ≤ k ∧ k ≤ 8 := by
  simp [Params.supportedK]

/-- No width from 1 to 8 has more than 7 bytes in a chunk (00_scope.md R8). -/
theorem chunkBytes_le (k : Nat) : chunkBytes k ≤ 7 := by
  by_cases h : 1 ≤ k ∧ k ≤ 8
  · obtain ⟨h1, h8⟩ := h
    interval_cases k <;> decide
  · simp [chunkBytes, h]

/-- A chunk of a supported width fits ACC (00_scope.md R7). -/
theorem chunk_fits {p : Params} {k : Nat} (h : k ∈ p.supportedK) : 8 * chunkBytes k ≤ p.accBits :=
  Nat.mul_le_mul_left 8 (le_largest (List.mem_map_of_mem h))

/-- The alphabet of a supported width fits the table (00_scope.md R7). -/
theorem alphabet_fits {p : Params} {k : Nat} (h : k ∈ p.supportedK) : 2 ^ k ≤ p.alphaMax :=
  Nat.pow_le_pow_right (by decide) (le_largest h)

theorem accBits_le (p : Params) : p.accBits ≤ Config.accRoom := by
  have : p.cMax ≤ 7 := largest_le fun n hn => by
    obtain ⟨k, -, rfl⟩ := List.mem_map.1 hn
    exact chunkBytes_le k
  show 8 * p.cMax ≤ 56
  omega

theorem alphaMax_le (p : Params) : p.alphaMax ≤ 256 :=
  le_trans (Nat.pow_le_pow_right (by decide) (largest_le fun _ hn => (mem_supportedK.1 hn).2.2))
    (show 2 ^ 8 ≤ 256 by decide)

/-- The derived defaults (00_scope.md R7). -/
theorem default_derived :
    Params.default.cMax = 3 ∧ Params.default.accBits = 24 ∧ Params.default.alphaMax = 64 := by decide

end Sys2Proof.Laws.Config
end

