-- ==== Sys2Proof/Laws/Decode.lean ====
section
/-! SUPPORT. What the decoder and the operand checks say, once: fields as numbers, and inversion lemmas that provers cite
instead of unfolding `decode` and `Instr.operandFault`. -/

namespace Sys2Proof.Laws

/-- A bit field as a number (00_scope.md R9). -/
theorem bits_toNat {w : Nat} (v : BitVec w) (lo len : Nat) :
    (bits v lo len).toNat = v.toNat / 2 ^ lo % 2 ^ len := by
  rw [BitVec.extractLsb'_toNat, Nat.shiftRight_eq_div_pow]

theorem bits_eq_zero_iff {w : Nat} (v : BitVec w) (lo len : Nat) :
    bits v lo len = 0 ↔ v.toNat / 2 ^ lo % 2 ^ len = 0 := by
  rw [← bits_toNat, ← BitVec.toNat_inj, BitVec.ofNat_eq_ofNat, BitVec.toNat_ofNat, Nat.zero_mod]

theorem whenZero_ok_iff {n : Nat} (z : BitVec n) (i j : Instr) :
    whenZero z i = .ok j ↔ z = 0 ∧ i = j := by
  unfold whenZero
  split <;> simp_all

theorem whenZero_error_iff {n : Nat} (z : BitVec n) (i : Instr) (r : Illegal) :
    whenZero z i = .error r ↔ z ≠ 0 ∧ .zeroField = r := by
  unfold whenZero
  split <;> simp_all

/-- What a decoded word says of its own fields, per command (30_encoding.md R89). -/
def Reads (w : Word) : Instr → Prop
  | .wrcsr csr value => (bits w 28 4).toNat = 1 ∧ bits w 24 4 = csr ∧ bits w 0 24 = value
  | .rdcsr csr => (bits w 28 4).toNat = 2 ∧ bits w 0 24 = 0 ∧ bits w 24 4 = csr
  | .wralpha index sym =>
    (bits w 28 4).toNat = 3 ∧ bits w 16 12 = 0 ∧ bits w 8 8 = index ∧ bits w 0 8 = sym
  | .start => (bits w 28 4).toNat = 4 ∧ bits w 0 28 = 0
  | .push b => (bits w 28 4).toNat = 5 ∧ bits w 8 20 = 0 ∧ bits w 0 8 = b
  | .endStream => (bits w 28 4).toNat = 6 ∧ bits w 0 28 = 0
  | .rderr => (bits w 28 4).toNat = 7 ∧ bits w 0 28 = 0
  | .wrerr => (bits w 28 4).toNat = 8 ∧ bits w 0 28 = 0

/-- Decoding, inverted: `decode` answers a command exactly when the word's fields read so. -/
theorem decode_eq_ok_iff (w : Word) (i : Instr) : decode w = .ok i ↔ Reads w i := by
  unfold decode
  cases i <;> simp only [Reads] <;>
    generalize (bits w 28 4).toNat = n, bits w 0 24 = a, bits w 16 12 = b, bits w 0 28 = c, bits w 8 20 = d,
      bits w 24 4 = e, bits w 8 8 = f, bits w 0 8 = g <;>
    split <;> simp_all [whenZero_ok_iff]

/-- A word that decodes to nothing has a reserved opcode or a nonzero "zero" field (30_encoding.md R90 item 1). -/
theorem decode_error {w : Word} {r : Illegal} (h : decode w = .error r) :
    (bits w 28 4).toNat = 0 ∨ 9 ≤ (bits w 28 4).toNat ∨
    ((bits w 28 4).toNat = 2 ∧ bits w 0 24 ≠ 0) ∨ ((bits w 28 4).toNat = 3 ∧ bits w 16 12 ≠ 0) ∨
    ((bits w 28 4).toNat = 5 ∧ bits w 8 20 ≠ 0) ∨
    ((bits w 28 4).toNat ∈ [4, 6, 7, 8] ∧ bits w 0 28 ≠ 0) := by
  unfold decode at h
  revert h
  generalize (bits w 28 4).toNat = n, bits w 0 24 = a, bits w 16 12 = b, bits w 0 28 = c, bits w 8 20 = d,
    bits w 24 4 = e, bits w 8 8 = f, bits w 0 8 = g
  split
  case h_9 =>
    intro _
    have : n = 0 ∨ 9 ≤ n := by
      by_contra hn
      have : n < 9 := by omega
      interval_cases n <;> simp_all
    tauto
  all_goals simp_all [whenZero_error_iff]

/-- The implemented CSR numbers are 0 to 6 (10_state.md R27). -/
theorem ofNumber_eq_none_iff (n : BitVec 4) : Csr.ofNumber n = none ↔ 7 ≤ n.toNat := by
  revert n; decide

theorem ofNumber_eq_some_iff (n : BitVec 4) (c : Csr) : Csr.ofNumber n = some c ↔ n = c.number := by
  revert n; cases c <;> decide

@[simp] theorem ofNumber_number (c : Csr) : Csr.ofNumber c.number = some c := by cases c <;> rfl

/-- The operand checks of WRCSR, passed (30_encoding.md R90 items 2 and 3). -/
theorem wrcsr_wellFormed_iff (p : Params) (csr : BitVec 4) (value : BitVec 24) :
    (Instr.wrcsr csr value).WellFormed p ↔
      (csr = 0 ∧ reservedClear .mode value = true) ∨ (csr = 1 ∧ reservedClear .wrap value = true) ∨
      (csr = 2 ∧ reservedClear .alen value = true) := by
  simp only [Instr.WellFormed, Instr.operandFault, wrcsrFault]
  rcases h : Csr.ofNumber csr with _ | c
  · rw [ofNumber_eq_none_iff] at h
    simp only [reduceCtorEq, false_iff]
    rintro (⟨rfl, -⟩ | ⟨rfl, -⟩ | ⟨rfl, -⟩) <;> simp at h
  · rw [ofNumber_eq_some_iff] at h
    subst h
    cases c <;> simp [Csr.writable, Csr.number]

theorem rdcsr_wellFormed_iff (p : Params) (csr : BitVec 4) : (Instr.rdcsr csr).WellFormed p ↔ csr.toNat < 7 := by
  simp only [Instr.WellFormed, Instr.operandFault]
  rcases h : Csr.ofNumber csr with _ | c
  · simp [(ofNumber_eq_none_iff csr).1 h]
  · have : ¬ 7 ≤ csr.toNat := fun h' => by simp [(ofNumber_eq_none_iff csr).2 h'] at h
    simp; omega

theorem wralpha_wellFormed_iff (p : Params) (index sym : Byte) :
    (Instr.wralpha index sym).WellFormed p ↔ index.toNat < p.alphaMax := by
  simp only [Instr.WellFormed, Instr.operandFault]
  split <;> simp_all

/-! ### The encoded word as a number -/

theorem toNat_append {n m : Nat} (x : BitVec n) (y : BitVec m) :
    (x ++ y).toNat = x.toNat * 2 ^ m + y.toNat := by
  rw [BitVec.toNat_append, ← Nat.shiftLeft_add_eq_or_of_lt y.isLt, Nat.shiftLeft_eq]

/-- 30_encoding.md R94: each command's word, its fields at their places. -/
theorem encode_toNat (i : Instr) :
    (encode i).toNat =
      match i with
      | .wrcsr csr value => 0x10000000 + csr.toNat * 2 ^ 24 + value.toNat
      | .rdcsr csr => 0x20000000 + csr.toNat * 2 ^ 24
      | .wralpha index sym => 0x30000000 + index.toNat * 2 ^ 8 + sym.toNat
      | .start => 0x40000000
      | .push byte => 0x50000000 + byte.toNat
      | .endStream => 0x60000000
      | .rderr => 0x70000000
      | .wrerr => 0x80000000 := by
  cases i <;> simp only [encode] <;> (try rfl) <;> simp only [toNat_append, BitVec.toNat_ofNat] <;> omega

end Sys2Proof.Laws
end

