-- ==== Sys2Proof/Laws/State.lean ====
section
/-!
SUPPORT. One lemma per field per update of State, so that no proof unfolds an update; then the views of the registers
(fields of MODE, WRAP and ALEN, the geometry, the configuration check) that an update leaves alone.
-/

namespace Sys2Proof.Machine

/-! ### `State.emit` -/

@[simp] theorem State.emit_params (s : State) (ch : Byte) : (s.emit ch).params = s.params := rfl
@[simp] theorem State.emit_state (s : State) (ch : Byte) : (s.emit ch).state = s.state := rfl
@[simp] theorem State.emit_errCode (s : State) (ch : Byte) : (s.emit ch).errCode = s.errCode := rfl
@[simp] theorem State.emit_mode (s : State) (ch : Byte) : (s.emit ch).mode = s.mode := rfl
@[simp] theorem State.emit_wrap (s : State) (ch : Byte) : (s.emit ch).wrap = s.wrap := rfl
@[simp] theorem State.emit_alen (s : State) (ch : Byte) : (s.emit ch).alen = s.alen := rfl
@[simp] theorem State.emit_alphabet (s : State) (ch : Byte) : (s.emit ch).alphabet = s.alphabet := rfl
@[simp] theorem State.emit_acc (s : State) (ch : Byte) : (s.emit ch).acc = s.acc := rfl
@[simp] theorem State.emit_byteCnt (s : State) (ch : Byte) : (s.emit ch).byteCnt = s.byteCnt := rfl
@[simp] theorem State.emit_col (s : State) (ch : Byte) : (s.emit ch).col = s.col := rfl
@[simp] theorem State.emit_out (s : State) (ch : Byte) : (s.emit ch).out = s.out ++ [ch] := rfl
@[simp] theorem State.emit_resp (s : State) (ch : Byte) : (s.emit ch).resp = s.resp := rfl
@[simp] theorem State.emit_input (s : State) (ch : Byte) : (s.emit ch).input = s.input := rfl
@[simp] theorem State.emit_resets (s : State) (ch : Byte) : (s.emit ch).resets = s.resets := rfl
@[simp] theorem State.emit_bitWidth (s : State) (ch : Byte) : (s.emit ch).bitWidth = s.bitWidth := rfl
@[simp] theorem State.emit_chunk (s : State) (ch : Byte) : (s.emit ch).chunk = s.chunk := rfl
@[simp] theorem State.emit_syms (s : State) (ch : Byte) : (s.emit ch).syms = s.syms := rfl
@[simp] theorem State.emit_padEn (s : State) (ch : Byte) : (s.emit ch).padEn = s.padEn := rfl
@[simp] theorem State.emit_padSym (s : State) (ch : Byte) : (s.emit ch).padSym = s.padSym := rfl
@[simp] theorem State.emit_wrapEn (s : State) (ch : Byte) : (s.emit ch).wrapEn = s.wrapEn := rfl
@[simp] theorem State.emit_wrapWidth (s : State) (ch : Byte) : (s.emit ch).wrapWidth = s.wrapWidth := rfl
@[simp] theorem State.emit_alphaLen (s : State) (ch : Byte) : (s.emit ch).alphaLen = s.alphaLen := rfl
@[simp] theorem State.emit_configValid (s : State) (ch : Byte) : (s.emit ch).configValid = s.configValid := rfl
@[simp] theorem State.emit_symbol (s : State) (ch : Byte) : (s.emit ch).symbol = s.symbol := rfl
@[simp] theorem State.emit_statusWord (s : State) (ch : Byte) : (s.emit ch).statusWord = s.statusWord := rfl

/-! ### `State.respond` -/

@[simp] theorem State.respond_params (s : State) (v : Word) : (s.respond v).params = s.params := rfl
@[simp] theorem State.respond_state (s : State) (v : Word) : (s.respond v).state = s.state := rfl
@[simp] theorem State.respond_errCode (s : State) (v : Word) : (s.respond v).errCode = s.errCode := rfl
@[simp] theorem State.respond_mode (s : State) (v : Word) : (s.respond v).mode = s.mode := rfl
@[simp] theorem State.respond_wrap (s : State) (v : Word) : (s.respond v).wrap = s.wrap := rfl
@[simp] theorem State.respond_alen (s : State) (v : Word) : (s.respond v).alen = s.alen := rfl
@[simp] theorem State.respond_alphabet (s : State) (v : Word) : (s.respond v).alphabet = s.alphabet := rfl
@[simp] theorem State.respond_acc (s : State) (v : Word) : (s.respond v).acc = s.acc := rfl
@[simp] theorem State.respond_byteCnt (s : State) (v : Word) : (s.respond v).byteCnt = s.byteCnt := rfl
@[simp] theorem State.respond_col (s : State) (v : Word) : (s.respond v).col = s.col := rfl
@[simp] theorem State.respond_out (s : State) (v : Word) : (s.respond v).out = s.out := rfl
@[simp] theorem State.respond_resp (s : State) (v : Word) : (s.respond v).resp = s.resp ++ [v] := rfl
@[simp] theorem State.respond_input (s : State) (v : Word) : (s.respond v).input = s.input := rfl
@[simp] theorem State.respond_resets (s : State) (v : Word) : (s.respond v).resets = s.resets := rfl
@[simp] theorem State.respond_bitWidth (s : State) (v : Word) : (s.respond v).bitWidth = s.bitWidth := rfl
@[simp] theorem State.respond_chunk (s : State) (v : Word) : (s.respond v).chunk = s.chunk := rfl
@[simp] theorem State.respond_syms (s : State) (v : Word) : (s.respond v).syms = s.syms := rfl
@[simp] theorem State.respond_padEn (s : State) (v : Word) : (s.respond v).padEn = s.padEn := rfl
@[simp] theorem State.respond_padSym (s : State) (v : Word) : (s.respond v).padSym = s.padSym := rfl
@[simp] theorem State.respond_wrapEn (s : State) (v : Word) : (s.respond v).wrapEn = s.wrapEn := rfl
@[simp] theorem State.respond_wrapWidth (s : State) (v : Word) : (s.respond v).wrapWidth = s.wrapWidth := rfl
@[simp] theorem State.respond_alphaLen (s : State) (v : Word) : (s.respond v).alphaLen = s.alphaLen := rfl
@[simp] theorem State.respond_configValid (s : State) (v : Word) : (s.respond v).configValid = s.configValid := rfl
@[simp] theorem State.respond_symbol (s : State) (v : Word) : (s.respond v).symbol = s.symbol := rfl
@[simp] theorem State.respond_statusWord (s : State) (v : Word) : (s.respond v).statusWord = s.statusWord := rfl

/-! ### `State.setAlphabet` -/

@[simp] theorem State.setAlphabet_params (s : State) (i : Nat) (b : Byte) : (s.setAlphabet i b).params = s.params := rfl
@[simp] theorem State.setAlphabet_state (s : State) (i : Nat) (b : Byte) : (s.setAlphabet i b).state = s.state := rfl
@[simp] theorem State.setAlphabet_errCode (s : State) (i : Nat) (b : Byte) : (s.setAlphabet i b).errCode = s.errCode := rfl
@[simp] theorem State.setAlphabet_mode (s : State) (i : Nat) (b : Byte) : (s.setAlphabet i b).mode = s.mode := rfl
@[simp] theorem State.setAlphabet_wrap (s : State) (i : Nat) (b : Byte) : (s.setAlphabet i b).wrap = s.wrap := rfl
@[simp] theorem State.setAlphabet_alen (s : State) (i : Nat) (b : Byte) : (s.setAlphabet i b).alen = s.alen := rfl
@[simp] theorem State.setAlphabet_alphabet (s : State) (i : Nat) (b : Byte) : (s.setAlphabet i b).alphabet = s.alphabet.set i b := rfl
@[simp] theorem State.setAlphabet_acc (s : State) (i : Nat) (b : Byte) : (s.setAlphabet i b).acc = s.acc := rfl
@[simp] theorem State.setAlphabet_byteCnt (s : State) (i : Nat) (b : Byte) : (s.setAlphabet i b).byteCnt = s.byteCnt := rfl
@[simp] theorem State.setAlphabet_col (s : State) (i : Nat) (b : Byte) : (s.setAlphabet i b).col = s.col := rfl
@[simp] theorem State.setAlphabet_out (s : State) (i : Nat) (b : Byte) : (s.setAlphabet i b).out = s.out := rfl
@[simp] theorem State.setAlphabet_resp (s : State) (i : Nat) (b : Byte) : (s.setAlphabet i b).resp = s.resp := rfl
@[simp] theorem State.setAlphabet_input (s : State) (i : Nat) (b : Byte) : (s.setAlphabet i b).input = s.input := rfl
@[simp] theorem State.setAlphabet_resets (s : State) (i : Nat) (b : Byte) : (s.setAlphabet i b).resets = s.resets := rfl
@[simp] theorem State.setAlphabet_bitWidth (s : State) (i : Nat) (b : Byte) : (s.setAlphabet i b).bitWidth = s.bitWidth := rfl
@[simp] theorem State.setAlphabet_chunk (s : State) (i : Nat) (b : Byte) : (s.setAlphabet i b).chunk = s.chunk := rfl
@[simp] theorem State.setAlphabet_syms (s : State) (i : Nat) (b : Byte) : (s.setAlphabet i b).syms = s.syms := rfl
@[simp] theorem State.setAlphabet_padEn (s : State) (i : Nat) (b : Byte) : (s.setAlphabet i b).padEn = s.padEn := rfl
@[simp] theorem State.setAlphabet_padSym (s : State) (i : Nat) (b : Byte) : (s.setAlphabet i b).padSym = s.padSym := rfl
@[simp] theorem State.setAlphabet_wrapEn (s : State) (i : Nat) (b : Byte) : (s.setAlphabet i b).wrapEn = s.wrapEn := rfl
@[simp] theorem State.setAlphabet_wrapWidth (s : State) (i : Nat) (b : Byte) : (s.setAlphabet i b).wrapWidth = s.wrapWidth := rfl
@[simp] theorem State.setAlphabet_alphaLen (s : State) (i : Nat) (b : Byte) : (s.setAlphabet i b).alphaLen = s.alphaLen := rfl
@[simp] theorem State.setAlphabet_configValid (s : State) (i : Nat) (b : Byte) : (s.setAlphabet i b).configValid = s.configValid := rfl
@[simp] theorem State.setAlphabet_statusWord (s : State) (i : Nat) (b : Byte) : (s.setAlphabet i b).statusWord = s.statusWord := rfl

/-! ### `State.setStatus` -/

@[simp] theorem State.setStatus_params (s : State) (st : SessionState) (e : ErrCode) : (s.setStatus st e).params = s.params := rfl
@[simp] theorem State.setStatus_state (s : State) (st : SessionState) (e : ErrCode) : (s.setStatus st e).state = st := rfl
@[simp] theorem State.setStatus_errCode (s : State) (st : SessionState) (e : ErrCode) : (s.setStatus st e).errCode = e := rfl
@[simp] theorem State.setStatus_mode (s : State) (st : SessionState) (e : ErrCode) : (s.setStatus st e).mode = s.mode := rfl
@[simp] theorem State.setStatus_wrap (s : State) (st : SessionState) (e : ErrCode) : (s.setStatus st e).wrap = s.wrap := rfl
@[simp] theorem State.setStatus_alen (s : State) (st : SessionState) (e : ErrCode) : (s.setStatus st e).alen = s.alen := rfl
@[simp] theorem State.setStatus_alphabet (s : State) (st : SessionState) (e : ErrCode) : (s.setStatus st e).alphabet = s.alphabet := rfl
@[simp] theorem State.setStatus_acc (s : State) (st : SessionState) (e : ErrCode) : (s.setStatus st e).acc = s.acc := rfl
@[simp] theorem State.setStatus_byteCnt (s : State) (st : SessionState) (e : ErrCode) : (s.setStatus st e).byteCnt = s.byteCnt := rfl
@[simp] theorem State.setStatus_col (s : State) (st : SessionState) (e : ErrCode) : (s.setStatus st e).col = s.col := rfl
@[simp] theorem State.setStatus_out (s : State) (st : SessionState) (e : ErrCode) : (s.setStatus st e).out = s.out := rfl
@[simp] theorem State.setStatus_resp (s : State) (st : SessionState) (e : ErrCode) : (s.setStatus st e).resp = s.resp := rfl
@[simp] theorem State.setStatus_input (s : State) (st : SessionState) (e : ErrCode) : (s.setStatus st e).input = s.input := rfl
@[simp] theorem State.setStatus_resets (s : State) (st : SessionState) (e : ErrCode) : (s.setStatus st e).resets = s.resets := rfl
@[simp] theorem State.setStatus_bitWidth (s : State) (st : SessionState) (e : ErrCode) : (s.setStatus st e).bitWidth = s.bitWidth := rfl
@[simp] theorem State.setStatus_chunk (s : State) (st : SessionState) (e : ErrCode) : (s.setStatus st e).chunk = s.chunk := rfl
@[simp] theorem State.setStatus_syms (s : State) (st : SessionState) (e : ErrCode) : (s.setStatus st e).syms = s.syms := rfl
@[simp] theorem State.setStatus_padEn (s : State) (st : SessionState) (e : ErrCode) : (s.setStatus st e).padEn = s.padEn := rfl
@[simp] theorem State.setStatus_padSym (s : State) (st : SessionState) (e : ErrCode) : (s.setStatus st e).padSym = s.padSym := rfl
@[simp] theorem State.setStatus_wrapEn (s : State) (st : SessionState) (e : ErrCode) : (s.setStatus st e).wrapEn = s.wrapEn := rfl
@[simp] theorem State.setStatus_wrapWidth (s : State) (st : SessionState) (e : ErrCode) : (s.setStatus st e).wrapWidth = s.wrapWidth := rfl
@[simp] theorem State.setStatus_alphaLen (s : State) (st : SessionState) (e : ErrCode) : (s.setStatus st e).alphaLen = s.alphaLen := rfl
@[simp] theorem State.setStatus_configValid (s : State) (st : SessionState) (e : ErrCode) : (s.setStatus st e).configValid = s.configValid := rfl
@[simp] theorem State.setStatus_symbol (s : State) (st : SessionState) (e : ErrCode) : (s.setStatus st e).symbol = s.symbol := rfl

/-! ### `State.setChunk` -/

@[simp] theorem State.setChunk_params (s : State) (a : BitVec Config.accRoom) (n : BitVec 3) : (s.setChunk a n).params = s.params := rfl
@[simp] theorem State.setChunk_state (s : State) (a : BitVec Config.accRoom) (n : BitVec 3) : (s.setChunk a n).state = s.state := rfl
@[simp] theorem State.setChunk_errCode (s : State) (a : BitVec Config.accRoom) (n : BitVec 3) : (s.setChunk a n).errCode = s.errCode := rfl
@[simp] theorem State.setChunk_mode (s : State) (a : BitVec Config.accRoom) (n : BitVec 3) : (s.setChunk a n).mode = s.mode := rfl
@[simp] theorem State.setChunk_wrap (s : State) (a : BitVec Config.accRoom) (n : BitVec 3) : (s.setChunk a n).wrap = s.wrap := rfl
@[simp] theorem State.setChunk_alen (s : State) (a : BitVec Config.accRoom) (n : BitVec 3) : (s.setChunk a n).alen = s.alen := rfl
@[simp] theorem State.setChunk_alphabet (s : State) (a : BitVec Config.accRoom) (n : BitVec 3) : (s.setChunk a n).alphabet = s.alphabet := rfl
@[simp] theorem State.setChunk_acc (s : State) (a : BitVec Config.accRoom) (n : BitVec 3) : (s.setChunk a n).acc = a := rfl
@[simp] theorem State.setChunk_byteCnt (s : State) (a : BitVec Config.accRoom) (n : BitVec 3) : (s.setChunk a n).byteCnt = n := rfl
@[simp] theorem State.setChunk_col (s : State) (a : BitVec Config.accRoom) (n : BitVec 3) : (s.setChunk a n).col = s.col := rfl
@[simp] theorem State.setChunk_out (s : State) (a : BitVec Config.accRoom) (n : BitVec 3) : (s.setChunk a n).out = s.out := rfl
@[simp] theorem State.setChunk_resp (s : State) (a : BitVec Config.accRoom) (n : BitVec 3) : (s.setChunk a n).resp = s.resp := rfl
@[simp] theorem State.setChunk_input (s : State) (a : BitVec Config.accRoom) (n : BitVec 3) : (s.setChunk a n).input = s.input := rfl
@[simp] theorem State.setChunk_resets (s : State) (a : BitVec Config.accRoom) (n : BitVec 3) : (s.setChunk a n).resets = s.resets := rfl
@[simp] theorem State.setChunk_bitWidth (s : State) (a : BitVec Config.accRoom) (n : BitVec 3) : (s.setChunk a n).bitWidth = s.bitWidth := rfl
@[simp] theorem State.setChunk_chunk (s : State) (a : BitVec Config.accRoom) (n : BitVec 3) : (s.setChunk a n).chunk = s.chunk := rfl
@[simp] theorem State.setChunk_syms (s : State) (a : BitVec Config.accRoom) (n : BitVec 3) : (s.setChunk a n).syms = s.syms := rfl
@[simp] theorem State.setChunk_padEn (s : State) (a : BitVec Config.accRoom) (n : BitVec 3) : (s.setChunk a n).padEn = s.padEn := rfl
@[simp] theorem State.setChunk_padSym (s : State) (a : BitVec Config.accRoom) (n : BitVec 3) : (s.setChunk a n).padSym = s.padSym := rfl
@[simp] theorem State.setChunk_wrapEn (s : State) (a : BitVec Config.accRoom) (n : BitVec 3) : (s.setChunk a n).wrapEn = s.wrapEn := rfl
@[simp] theorem State.setChunk_wrapWidth (s : State) (a : BitVec Config.accRoom) (n : BitVec 3) : (s.setChunk a n).wrapWidth = s.wrapWidth := rfl
@[simp] theorem State.setChunk_alphaLen (s : State) (a : BitVec Config.accRoom) (n : BitVec 3) : (s.setChunk a n).alphaLen = s.alphaLen := rfl
@[simp] theorem State.setChunk_configValid (s : State) (a : BitVec Config.accRoom) (n : BitVec 3) : (s.setChunk a n).configValid = s.configValid := rfl
@[simp] theorem State.setChunk_symbol (s : State) (a : BitVec Config.accRoom) (n : BitVec 3) : (s.setChunk a n).symbol = s.symbol := rfl
@[simp] theorem State.setChunk_statusWord (s : State) (a : BitVec Config.accRoom) (n : BitVec 3) : (s.setChunk a n).statusWord = s.statusWord := rfl

/-! ### `State.setCol` -/

@[simp] theorem State.setCol_params (s : State) (c : BitVec Config.wrapRoom) : (s.setCol c).params = s.params := rfl
@[simp] theorem State.setCol_state (s : State) (c : BitVec Config.wrapRoom) : (s.setCol c).state = s.state := rfl
@[simp] theorem State.setCol_errCode (s : State) (c : BitVec Config.wrapRoom) : (s.setCol c).errCode = s.errCode := rfl
@[simp] theorem State.setCol_mode (s : State) (c : BitVec Config.wrapRoom) : (s.setCol c).mode = s.mode := rfl
@[simp] theorem State.setCol_wrap (s : State) (c : BitVec Config.wrapRoom) : (s.setCol c).wrap = s.wrap := rfl
@[simp] theorem State.setCol_alen (s : State) (c : BitVec Config.wrapRoom) : (s.setCol c).alen = s.alen := rfl
@[simp] theorem State.setCol_alphabet (s : State) (c : BitVec Config.wrapRoom) : (s.setCol c).alphabet = s.alphabet := rfl
@[simp] theorem State.setCol_acc (s : State) (c : BitVec Config.wrapRoom) : (s.setCol c).acc = s.acc := rfl
@[simp] theorem State.setCol_byteCnt (s : State) (c : BitVec Config.wrapRoom) : (s.setCol c).byteCnt = s.byteCnt := rfl
@[simp] theorem State.setCol_col (s : State) (c : BitVec Config.wrapRoom) : (s.setCol c).col = c := rfl
@[simp] theorem State.setCol_out (s : State) (c : BitVec Config.wrapRoom) : (s.setCol c).out = s.out := rfl
@[simp] theorem State.setCol_resp (s : State) (c : BitVec Config.wrapRoom) : (s.setCol c).resp = s.resp := rfl
@[simp] theorem State.setCol_input (s : State) (c : BitVec Config.wrapRoom) : (s.setCol c).input = s.input := rfl
@[simp] theorem State.setCol_resets (s : State) (c : BitVec Config.wrapRoom) : (s.setCol c).resets = s.resets := rfl
@[simp] theorem State.setCol_bitWidth (s : State) (c : BitVec Config.wrapRoom) : (s.setCol c).bitWidth = s.bitWidth := rfl
@[simp] theorem State.setCol_chunk (s : State) (c : BitVec Config.wrapRoom) : (s.setCol c).chunk = s.chunk := rfl
@[simp] theorem State.setCol_syms (s : State) (c : BitVec Config.wrapRoom) : (s.setCol c).syms = s.syms := rfl
@[simp] theorem State.setCol_padEn (s : State) (c : BitVec Config.wrapRoom) : (s.setCol c).padEn = s.padEn := rfl
@[simp] theorem State.setCol_padSym (s : State) (c : BitVec Config.wrapRoom) : (s.setCol c).padSym = s.padSym := rfl
@[simp] theorem State.setCol_wrapEn (s : State) (c : BitVec Config.wrapRoom) : (s.setCol c).wrapEn = s.wrapEn := rfl
@[simp] theorem State.setCol_wrapWidth (s : State) (c : BitVec Config.wrapRoom) : (s.setCol c).wrapWidth = s.wrapWidth := rfl
@[simp] theorem State.setCol_alphaLen (s : State) (c : BitVec Config.wrapRoom) : (s.setCol c).alphaLen = s.alphaLen := rfl
@[simp] theorem State.setCol_configValid (s : State) (c : BitVec Config.wrapRoom) : (s.setCol c).configValid = s.configValid := rfl
@[simp] theorem State.setCol_symbol (s : State) (c : BitVec Config.wrapRoom) : (s.setCol c).symbol = s.symbol := rfl
@[simp] theorem State.setCol_statusWord (s : State) (c : BitVec Config.wrapRoom) : (s.setCol c).statusWord = s.statusWord := rfl

/-! ### `State.setInput` -/

@[simp] theorem State.setInput_params (s : State) (l : List Input) : (s.setInput l).params = s.params := rfl
@[simp] theorem State.setInput_state (s : State) (l : List Input) : (s.setInput l).state = s.state := rfl
@[simp] theorem State.setInput_errCode (s : State) (l : List Input) : (s.setInput l).errCode = s.errCode := rfl
@[simp] theorem State.setInput_mode (s : State) (l : List Input) : (s.setInput l).mode = s.mode := rfl
@[simp] theorem State.setInput_wrap (s : State) (l : List Input) : (s.setInput l).wrap = s.wrap := rfl
@[simp] theorem State.setInput_alen (s : State) (l : List Input) : (s.setInput l).alen = s.alen := rfl
@[simp] theorem State.setInput_alphabet (s : State) (l : List Input) : (s.setInput l).alphabet = s.alphabet := rfl
@[simp] theorem State.setInput_acc (s : State) (l : List Input) : (s.setInput l).acc = s.acc := rfl
@[simp] theorem State.setInput_byteCnt (s : State) (l : List Input) : (s.setInput l).byteCnt = s.byteCnt := rfl
@[simp] theorem State.setInput_col (s : State) (l : List Input) : (s.setInput l).col = s.col := rfl
@[simp] theorem State.setInput_out (s : State) (l : List Input) : (s.setInput l).out = s.out := rfl
@[simp] theorem State.setInput_resp (s : State) (l : List Input) : (s.setInput l).resp = s.resp := rfl
@[simp] theorem State.setInput_input (s : State) (l : List Input) : (s.setInput l).input = l := rfl
@[simp] theorem State.setInput_resets (s : State) (l : List Input) : (s.setInput l).resets = s.resets := rfl
@[simp] theorem State.setInput_bitWidth (s : State) (l : List Input) : (s.setInput l).bitWidth = s.bitWidth := rfl
@[simp] theorem State.setInput_chunk (s : State) (l : List Input) : (s.setInput l).chunk = s.chunk := rfl
@[simp] theorem State.setInput_syms (s : State) (l : List Input) : (s.setInput l).syms = s.syms := rfl
@[simp] theorem State.setInput_padEn (s : State) (l : List Input) : (s.setInput l).padEn = s.padEn := rfl
@[simp] theorem State.setInput_padSym (s : State) (l : List Input) : (s.setInput l).padSym = s.padSym := rfl
@[simp] theorem State.setInput_wrapEn (s : State) (l : List Input) : (s.setInput l).wrapEn = s.wrapEn := rfl
@[simp] theorem State.setInput_wrapWidth (s : State) (l : List Input) : (s.setInput l).wrapWidth = s.wrapWidth := rfl
@[simp] theorem State.setInput_alphaLen (s : State) (l : List Input) : (s.setInput l).alphaLen = s.alphaLen := rfl
@[simp] theorem State.setInput_configValid (s : State) (l : List Input) : (s.setInput l).configValid = s.configValid := rfl
@[simp] theorem State.setInput_symbol (s : State) (l : List Input) : (s.setInput l).symbol = s.symbol := rfl
@[simp] theorem State.setInput_statusWord (s : State) (l : List Input) : (s.setInput l).statusWord = s.statusWord := rfl

/-! ### `State.beginSession` -/

@[simp] theorem State.beginSession_params (s : State) : s.beginSession.params = s.params := rfl
@[simp] theorem State.beginSession_state (s : State) : s.beginSession.state = .active := rfl
@[simp] theorem State.beginSession_errCode (s : State) : s.beginSession.errCode = .none := rfl
@[simp] theorem State.beginSession_mode (s : State) : s.beginSession.mode = s.mode := rfl
@[simp] theorem State.beginSession_wrap (s : State) : s.beginSession.wrap = s.wrap := rfl
@[simp] theorem State.beginSession_alen (s : State) : s.beginSession.alen = s.alen := rfl
@[simp] theorem State.beginSession_alphabet (s : State) : s.beginSession.alphabet = s.alphabet := rfl
@[simp] theorem State.beginSession_acc (s : State) : s.beginSession.acc = 0 := rfl
@[simp] theorem State.beginSession_byteCnt (s : State) : s.beginSession.byteCnt = 0 := rfl
@[simp] theorem State.beginSession_col (s : State) : s.beginSession.col = 0 := rfl
@[simp] theorem State.beginSession_out (s : State) : s.beginSession.out = s.out := rfl
@[simp] theorem State.beginSession_resp (s : State) : s.beginSession.resp = s.resp := rfl
@[simp] theorem State.beginSession_input (s : State) : s.beginSession.input = s.input := rfl
@[simp] theorem State.beginSession_resets (s : State) : s.beginSession.resets = s.resets := rfl
@[simp] theorem State.beginSession_bitWidth (s : State) : s.beginSession.bitWidth = s.bitWidth := rfl
@[simp] theorem State.beginSession_chunk (s : State) : s.beginSession.chunk = s.chunk := rfl
@[simp] theorem State.beginSession_syms (s : State) : s.beginSession.syms = s.syms := rfl
@[simp] theorem State.beginSession_padEn (s : State) : s.beginSession.padEn = s.padEn := rfl
@[simp] theorem State.beginSession_padSym (s : State) : s.beginSession.padSym = s.padSym := rfl
@[simp] theorem State.beginSession_wrapEn (s : State) : s.beginSession.wrapEn = s.wrapEn := rfl
@[simp] theorem State.beginSession_wrapWidth (s : State) : s.beginSession.wrapWidth = s.wrapWidth := rfl
@[simp] theorem State.beginSession_alphaLen (s : State) : s.beginSession.alphaLen = s.alphaLen := rfl
@[simp] theorem State.beginSession_configValid (s : State) : s.beginSession.configValid = s.configValid := rfl
@[simp] theorem State.beginSession_symbol (s : State) : s.beginSession.symbol = s.symbol := rfl

/-! ### `State.assertReset` -/

@[simp] theorem State.assertReset_params (s : State) : s.assertReset.params = s.params := rfl
@[simp] theorem State.assertReset_state (s : State) : s.assertReset.state = .idle := rfl
@[simp] theorem State.assertReset_errCode (s : State) : s.assertReset.errCode = .none := rfl
@[simp] theorem State.assertReset_mode (s : State) : s.assertReset.mode = 0 := rfl
@[simp] theorem State.assertReset_wrap (s : State) : s.assertReset.wrap = 0 := rfl
@[simp] theorem State.assertReset_alen (s : State) : s.assertReset.alen = 0 := rfl
@[simp] theorem State.assertReset_alphabet (s : State) : s.assertReset.alphabet = alphabetAtReset s.params (s.resets + 1) := rfl
@[simp] theorem State.assertReset_acc (s : State) : s.assertReset.acc = 0 := rfl
@[simp] theorem State.assertReset_byteCnt (s : State) : s.assertReset.byteCnt = 0 := rfl
@[simp] theorem State.assertReset_col (s : State) : s.assertReset.col = 0 := rfl
@[simp] theorem State.assertReset_out (s : State) : s.assertReset.out = [] := rfl
@[simp] theorem State.assertReset_resp (s : State) : s.assertReset.resp = [] := rfl
@[simp] theorem State.assertReset_input (s : State) : s.assertReset.input = s.input := rfl
@[simp] theorem State.assertReset_resets (s : State) : s.assertReset.resets = s.resets + 1 := rfl

/-! ### `State.resetOf` -/

@[simp] theorem State.resetOf_params (p : Params) : (State.resetOf p).params = p := rfl
@[simp] theorem State.resetOf_state (p : Params) : (State.resetOf p).state = .idle := rfl
@[simp] theorem State.resetOf_errCode (p : Params) : (State.resetOf p).errCode = .none := rfl
@[simp] theorem State.resetOf_mode (p : Params) : (State.resetOf p).mode = 0 := rfl
@[simp] theorem State.resetOf_wrap (p : Params) : (State.resetOf p).wrap = 0 := rfl
@[simp] theorem State.resetOf_alen (p : Params) : (State.resetOf p).alen = 0 := rfl
@[simp] theorem State.resetOf_alphabet (p : Params) : (State.resetOf p).alphabet = alphabetAtReset p 0 := rfl
@[simp] theorem State.resetOf_acc (p : Params) : (State.resetOf p).acc = 0 := rfl
@[simp] theorem State.resetOf_byteCnt (p : Params) : (State.resetOf p).byteCnt = 0 := rfl
@[simp] theorem State.resetOf_col (p : Params) : (State.resetOf p).col = 0 := rfl
@[simp] theorem State.resetOf_out (p : Params) : (State.resetOf p).out = [] := rfl
@[simp] theorem State.resetOf_resp (p : Params) : (State.resetOf p).resp = [] := rfl
@[simp] theorem State.resetOf_input (p : Params) : (State.resetOf p).input = [] := rfl
@[simp] theorem State.resetOf_resets (p : Params) : (State.resetOf p).resets = 0 := rfl

/-! ### `State.raise` -/

@[simp] theorem State.raise_params (s : State) (e : ErrCode) : (s.raise e).params = s.params := by
  unfold State.raise; split <;> rfl
@[simp] theorem State.raise_state (s : State) (e : ErrCode) : (s.raise e).state = .error := by
  unfold State.raise; split <;> simp_all
theorem State.raise_errCode (s : State) (e : ErrCode) :
    (s.raise e).errCode = if s.state = .error then s.errCode else e := by
  unfold State.raise; split <;> rfl
@[simp] theorem State.raise_mode (s : State) (e : ErrCode) : (s.raise e).mode = s.mode := by
  unfold State.raise; split <;> rfl
@[simp] theorem State.raise_wrap (s : State) (e : ErrCode) : (s.raise e).wrap = s.wrap := by
  unfold State.raise; split <;> rfl
@[simp] theorem State.raise_alen (s : State) (e : ErrCode) : (s.raise e).alen = s.alen := by
  unfold State.raise; split <;> rfl
@[simp] theorem State.raise_alphabet (s : State) (e : ErrCode) : (s.raise e).alphabet = s.alphabet := by
  unfold State.raise; split <;> rfl
@[simp] theorem State.raise_acc (s : State) (e : ErrCode) : (s.raise e).acc = s.acc := by
  unfold State.raise; split <;> rfl
@[simp] theorem State.raise_byteCnt (s : State) (e : ErrCode) : (s.raise e).byteCnt = s.byteCnt := by
  unfold State.raise; split <;> rfl
@[simp] theorem State.raise_col (s : State) (e : ErrCode) : (s.raise e).col = s.col := by
  unfold State.raise; split <;> rfl
@[simp] theorem State.raise_out (s : State) (e : ErrCode) : (s.raise e).out = s.out := by
  unfold State.raise; split <;> rfl
@[simp] theorem State.raise_resp (s : State) (e : ErrCode) : (s.raise e).resp = s.resp := by
  unfold State.raise; split <;> rfl
@[simp] theorem State.raise_input (s : State) (e : ErrCode) : (s.raise e).input = s.input := by
  unfold State.raise; split <;> rfl
@[simp] theorem State.raise_resets (s : State) (e : ErrCode) : (s.raise e).resets = s.resets := by
  unfold State.raise; split <;> rfl

/-! ### `State.writeCsr` -/

@[simp] theorem State.writeCsr_params (s : State) (c : Csr) (v : BitVec 24) : (s.writeCsr c v).params = s.params := by
  cases c <;> rfl
@[simp] theorem State.writeCsr_state (s : State) (c : Csr) (v : BitVec 24) : (s.writeCsr c v).state = s.state := by
  cases c <;> rfl
@[simp] theorem State.writeCsr_errCode (s : State) (c : Csr) (v : BitVec 24) : (s.writeCsr c v).errCode = s.errCode := by
  cases c <;> rfl
@[simp] theorem State.writeCsr_mode (s : State) (c : Csr) (v : BitVec 24) :
    (s.writeCsr c v).mode = if c = .mode then v else s.mode := by
  cases c <;> rfl
@[simp] theorem State.writeCsr_wrap (s : State) (c : Csr) (v : BitVec 24) :
    (s.writeCsr c v).wrap = if c = .wrap then v else s.wrap := by
  cases c <;> rfl
@[simp] theorem State.writeCsr_alen (s : State) (c : Csr) (v : BitVec 24) :
    (s.writeCsr c v).alen = if c = .alen then v else s.alen := by
  cases c <;> rfl
@[simp] theorem State.writeCsr_alphabet (s : State) (c : Csr) (v : BitVec 24) : (s.writeCsr c v).alphabet = s.alphabet := by
  cases c <;> rfl
@[simp] theorem State.writeCsr_acc (s : State) (c : Csr) (v : BitVec 24) : (s.writeCsr c v).acc = s.acc := by
  cases c <;> rfl
@[simp] theorem State.writeCsr_byteCnt (s : State) (c : Csr) (v : BitVec 24) : (s.writeCsr c v).byteCnt = s.byteCnt := by
  cases c <;> rfl
@[simp] theorem State.writeCsr_col (s : State) (c : Csr) (v : BitVec 24) : (s.writeCsr c v).col = s.col := by
  cases c <;> rfl
@[simp] theorem State.writeCsr_out (s : State) (c : Csr) (v : BitVec 24) : (s.writeCsr c v).out = s.out := by
  cases c <;> rfl
@[simp] theorem State.writeCsr_resp (s : State) (c : Csr) (v : BitVec 24) : (s.writeCsr c v).resp = s.resp := by
  cases c <;> rfl
@[simp] theorem State.writeCsr_input (s : State) (c : Csr) (v : BitVec 24) : (s.writeCsr c v).input = s.input := by
  cases c <;> rfl
@[simp] theorem State.writeCsr_resets (s : State) (c : Csr) (v : BitVec 24) : (s.writeCsr c v).resets = s.resets := by
  cases c <;> rfl

end Sys2Proof.Machine
end

