-- ==== Sys2Proof/Laws/Ops.lean ====
section
/-! SUPPORT. What the shared operations can do, once: `perform` under each admission, the step on each input, and runs of
commands. -/

namespace Sys2Proof.Machine

/-- `raise` outside ERROR sets STATE and ERR_CODE (60_exceptions.md R193). -/
theorem State.raise_of_ne {s : State} (h : s.state ≠ .error) (e : ErrCode) :
    s.raise e = s.setStatus .error e := by
  simp [State.raise, h]

/-- `raise` in ERROR has no effect (60_exceptions.md R193). -/
theorem State.raise_of_error {s : State} (h : s.state = .error) (e : ErrCode) : s.raise e = s := by
  simp [State.raise, h]

/-- What `perform` answers, case by case: the four rows of an admission. -/
theorem perform_cases (i : Instr) (s : State) (f : State → State) :
    (admission s.params i s.state = .illegal ∧ perform i s f = .next (s.raise .illegalCommand)) ∨
    (admission s.params i s.state = .ignored ∧ perform i s f = .next s) ∨
    (admission s.params i s.state = .outOfSequence ∧ perform i s f = .next (s.raise .sequenceError)) ∨
    (admission s.params i s.state = .executes ∧ perform i s f = .next (f s)) := by
  unfold perform
  cases h : admission s.params i s.state <;> simp

theorem admission_of_fault {p : Params} {i : Instr} (h : ¬ i.WellFormed p) (st : SessionState) :
    admission p i st = .illegal := by
  unfold admission
  rw [if_pos (Option.isSome_iff_ne_none.2 h)]

/-- The admission of a well-formed command (60_exceptions.md R196). -/
theorem admission_of_wellFormed {p : Params} {i : Instr} (h : i.WellFormed p) (st : SessionState) :
    admission p i st =
      if st = .error ∧ ignoredInError i then .ignored
      else if st = .active ∧ barredInActive i then .outOfSequence
      else if (st = .idle ∨ st = .done) ∧ needsSession i then .outOfSequence
      else .executes := by
  unfold admission
  rw [h]
  rfl

theorem perform_of_fault {i : Instr} {s : State} (h : ¬ i.WellFormed s.params) (f : State → State) :
    perform i s f = .next (s.raise .illegalCommand) := by
  simp [perform, admission_of_fault h]

/-- Every meaning is `perform` with its own effect. -/
def effectOf : Instr → State → State
  | .wrcsr csr value, s => wrcsrEffect csr value s
  | .rdcsr csr, s => rdcsrEffect csr s
  | .wralpha index sym, s => s.setAlphabet index.toNat sym
  | .start, s => startEffect s
  | .push b, s => pushEffect b s
  | .endStream, s => endEffect s
  | .rderr, s => s.raise .ioErrorSource
  | .wrerr, s => s.raise .ioErrorSink

theorem exec_eq_perform (i : Instr) (s : State) : exec i s = perform i s (effectOf i) := by
  cases i <;> rfl

/-- Each command ends in a next state (70_reset_and_hazards.md R236). -/
theorem exec_total (i : Instr) (s : State) : ∃ t, exec i s = .next t := by
  rw [exec_eq_perform]
  rcases perform_cases i s (effectOf i) with ⟨-, h⟩ | ⟨-, h⟩ | ⟨-, h⟩ | ⟨-, h⟩ <;> exact ⟨_, h⟩

/-- What a command can do to a state: nothing but an error, nothing at all, or its effect where it executes. -/
theorem exec_inv {i : Instr} {s t : State} (h : exec i s = .next t) :
    (¬ i.WellFormed s.params ∧ t = s.raise .illegalCommand) ∨ t = s ∨
    (i.WellFormed s.params ∧ t = s.raise .sequenceError) ∨
    (i.WellFormed s.params ∧ admission s.params i s.state = .executes ∧ t = effectOf i s) := by
  rw [exec_eq_perform] at h
  by_cases wf : i.WellFormed s.params
  · rcases perform_cases i s (effectOf i) with ⟨ha, h'⟩ | ⟨-, h'⟩ | ⟨-, h'⟩ | ⟨ha, h'⟩ <;>
      rw [h'] at h <;> cases h
    · rw [admission_of_wellFormed wf] at ha
      exact absurd ha (by repeat' split
                          all_goals simp)
    · exact .inr (.inl rfl)
    · exact .inr (.inr (.inl ⟨wf, rfl⟩))
    · exact .inr (.inr (.inr ⟨wf, ha, rfl⟩))
  · rw [perform_of_fault wf] at h
    cases h
    exact .inl ⟨wf, rfl⟩

/-! ### The step on each input -/

theorem step_nil {s : State} (h : s.input = []) : step s = .next s := by
  simp [step, advance, h]

theorem step_rst {s : State} {rest : List Input} (h : s.input = .rst :: rest) :
    step s = .next (s.setInput rest).assertReset := by
  simp [step, advance, h, runInput]

theorem step_word {s : State} {w : Word} {rest : List Input} (h : s.input = .word w :: rest) :
    step s = runWord w (s.setInput rest) := by
  simp [step, advance, h, runInput]

theorem runWord_ok {w : Word} {i : Instr} (h : decode w = .ok i) (s : State) : runWord w s = exec i s := by
  simp [runWord, h]

theorem runWord_error {w : Word} {r : Illegal} (h : decode w = .error r) (s : State) :
    runWord w s = .next (s.raise .illegalCommand) := by
  simp [runWord, h]

/-- What a step can do: wait, reset, raise ILLEGAL_COMMAND on a word that does not decode, or run a command. -/
theorem step_inv {s t : State} (h : step s = .next t) :
    (s.input = [] ∧ t = s) ∨
    (∃ rest, s.input = .rst :: rest ∧ t = (s.setInput rest).assertReset) ∨
    (∃ w rest r, s.input = .word w :: rest ∧ decode w = .error r ∧
      t = (s.setInput rest).raise .illegalCommand) ∨
    (∃ w rest i, s.input = .word w :: rest ∧ decode w = .ok i ∧ exec i (s.setInput rest) = .next t) := by
  rcases hin : s.input with _ | ⟨_ | _, rest⟩
  · rw [step_nil hin] at h; cases h; exact .inl ⟨rfl, rfl⟩
  · rename_i w
    rw [step_word hin] at h
    rcases hd : decode w with r | i
    · rw [runWord_error hd] at h; cases h
      exact .inr (.inr (.inl ⟨w, rest, r, rfl, hd, rfl⟩))
    · rw [runWord_ok hd] at h
      exact .inr (.inr (.inr ⟨w, rest, i, rfl, hd, h⟩))
  · rw [step_rst hin] at h; cases h
    exact .inr (.inl ⟨rest, rfl, rfl⟩)

end Sys2Proof.Machine

namespace Sys2Proof.Safety

open Sys2Proof.Machine

@[simp] theorem execAll_nil (s : State) : execAll [] s = .next s := rfl

theorem execAll_cons {i : Instr} {s t : State} (h : exec i s = .next t) (is : List Instr) :
    execAll (i :: is) s = execAll is t := by
  simp [execAll, h]

/-- Commands in two parts. -/
theorem execAll_append {s t : State} {is : List Instr} (h : execAll is s = .next t) (js : List Instr) :
    execAll (is ++ js) s = execAll js t := by
  induction is generalizing s with
  | nil => cases h; rfl
  | cons i is ih =>
    obtain ⟨u, hu⟩ := exec_total i s
    rw [execAll_cons hu] at h
    rw [List.cons_append, execAll_cons hu, ih h]

/-- Commands always end in a next state. -/
theorem execAll_total (is : List Instr) (s : State) : ∃ t, execAll is s = .next t := by
  induction is generalizing s with
  | nil => exact ⟨s, rfl⟩
  | cons i is ih =>
    obtain ⟨u, hu⟩ := exec_total i s
    rw [execAll_cons hu]
    exact ih u

end Sys2Proof.Safety
end

