-- ==== Sys2Proof/Laws/Operands.lean ====
section
/-! SUPPORT. What a configuration that passes START's check is: a supported geometry (41_datapath.md R131), with a usable
wrap width; and the registers' fields as numbers. -/

namespace Sys2Proof.Machine

theorem State.configValid_supported {s : State} (h : s.configValid = true) :
    s.bitWidth ∈ s.params.supportedK := by
  simp only [State.configValid, Bool.and_eq_true] at h
  simpa using h.1.1.1

/-- The geometry of a width from 1 to 8 (00_scope.md R8): a chunk is a whole number of symbols. -/
theorem geometry_arith {k : Nat} (h1 : 1 ≤ k) (h8 : k ≤ 8) :
    1 ≤ chunkBytes k ∧ chunkBytes k ≤ 7 ∧ 1 ≤ symsPerChunk k ∧ symsPerChunk k ≤ 8 ∧
    k * symsPerChunk k = 8 * chunkBytes k := by
  interval_cases k <;> decide

/-- The geometry of a valid configuration (00_scope.md R7, R8): its chunk fits ACC and its alphabet the table. -/
theorem State.configValid_arith {s : State} (h : s.configValid = true) :
    1 ≤ s.bitWidth ∧ s.bitWidth ≤ 8 ∧ 1 ≤ s.chunk ∧ s.chunk ≤ 7 ∧ 1 ≤ s.syms ∧
    s.bitWidth * s.syms = 8 * s.chunk ∧ 8 * s.chunk ≤ s.params.accBits ∧ 2 ^ s.bitWidth ≤ s.params.alphaMax := by
  have hk := State.configValid_supported h
  obtain ⟨-, h1, h8⟩ := Laws.Config.mem_supportedK.1 hk
  obtain ⟨c1, c7, s1, -, hg⟩ := geometry_arith h1 h8
  exact ⟨h1, h8, c1, c7, s1, hg, Laws.Config.chunk_fits hk, Laws.Config.alphabet_fits hk⟩

/-- WRAP.WIDTH as a number: the low WRAP_BITS bits of WRAP (10_state.md R31). -/
theorem State.wrapWidth_toNat (s : State) : s.wrapWidth.toNat = s.wrap.toNat % 2 ^ (s.params.wrapBits : Nat) := by
  have hb : (s.params.wrapBits : Nat) ≤ 16 := by omega
  have hlt : s.wrap.toNat % 2 ^ (s.params.wrapBits : Nat) < 2 ^ 16 :=
    lt_of_lt_of_le (Nat.mod_lt _ (by positivity)) (Nat.pow_le_pow_right (by decide) hb)
  rw [State.wrapWidth, BitVec.toNat_setWidth, Laws.bits_toNat, pow_zero, Nat.div_one, Nat.mod_eq_of_lt hlt]

theorem State.wrapWidth_lt (s : State) : s.wrapWidth.toNat < 2 ^ (s.params.wrapBits : Nat) := by
  rw [State.wrapWidth_toNat]
  exact Nat.mod_lt _ (by positivity)

/-- A lookup within the table reads its entry (41_datapath.md R138). -/
theorem State.alphabet_of_lt {s : State} {i : Nat} (h : i < s.alphabet.length) :
    s.alphabet[i]? = some (s.symbol i) := by
  rw [State.symbol, List.getElem?_eq_getElem h, Option.getD_some]

@[simp] theorem alphabetAtReset_length (p : Params) (n : Nat) : (alphabetAtReset p n).length = p.alphaMax := by
  simp [alphabetAtReset]

/-- With wrap enabled, a valid configuration has a width of at least 1 (40_config.md R116). -/
theorem State.configValid_width {s : State} (h : s.configValid = true) (he : s.wrapEn = true) :
    1 ≤ s.wrapWidth.toNat := by
  simp only [State.configValid, Bool.and_eq_true, Bool.or_eq_true, Bool.not_eq_true', he, decide_eq_true_eq]
    at h
  simpa using h.2

end Sys2Proof.Machine
end

