-- ==== Sys2Proof/Laws/Datapath.lean ====
section
/-! SUPPORT. The datapath, once per procedure: the extracted groups as numbers, one symbol with its newline, and the loop
of EmitChunk. -/

namespace Sys2Proof.Safety

open Sys2Proof.Machine

theorem newlineAfter_of_lt {width col : Nat} (nl : Byte) (en : Bool) (h : col < width) :
    newlineAfter nl en width (col + 1) = if en = true ∧ col + 1 = width then [nl] else [] := by
  have : (col + 1) % width = 0 ↔ col + 1 = width := by
    constructor
    · intro h0
      by_contra hne
      rw [Nat.mod_eq_of_lt (by omega)] at h0
      omega
    · rintro rfl
      exact Nat.mod_self _
  simp [newlineAfter, this]

@[simp] theorem lines_zero (nl : Byte) (en : Bool) (width col : Nat) (f : Nat → Byte) :
    lines nl en width col 0 f = [] := rfl

/-- The first symbol of some lines, and the rest. -/
theorem lines_succ (nl : Byte) (en : Bool) (width col n : Nat) (f : Nat → Byte) :
    lines nl en width col (n + 1) f =
      f 0 :: newlineAfter nl en width (col + 1) ++ lines nl en width (col + 1) n fun i => f (i + 1) := by
  simp only [lines, List.range_succ_eq_map, List.flatMap_cons, List.flatMap_map, Nat.add_zero,
    List.cons_append]
  congr 2
  refine congrArg (fun g => List.flatMap g (List.range n)) (funext fun j => ?_)
  rw [Nat.succ_eq_add_one, Nat.add_assoc col 1 j, Nat.add_comm 1 j]

/-- Only the column modulo the width matters to where the newlines fall. -/
theorem lines_mod (nl : Byte) (width col n : Nat) (f : Nat → Byte) :
    lines nl true width (col % width) n f = lines nl true width col n f := by
  simp only [lines, newlineAfter]
  congr 1
  funext j
  have : (col % width + j + 1) % width = (col + j + 1) % width := by
    rw [Nat.add_assoc, Nat.add_assoc, Nat.mod_add_mod]
  rw [this]

theorem lines_false (nl : Byte) (width col n : Nat) (f : Nat → Byte) :
    lines nl false width col n f = (List.range n).map f := by
  simp only [lines, newlineAfter, Bool.false_eq_true, false_and, if_false]
  exact List.flatMap_pure_eq_map f (List.range n)

end Sys2Proof.Safety

namespace Sys2Proof.Machine

open Sys2Proof.Safety

/-- The top group of `k` bits as a number (41_datapath.md R135). -/
theorem topBits_eq {w : Nat} (sh : BitVec w) {k : Nat} (h : k ≤ w) :
    topBits sh k = sh.toNat / 2 ^ (w - k) := by
  rw [topBits, BitVec.extractLsb'_toNat, Nat.shiftRight_eq_div_pow, Nat.mod_eq_of_lt]
  rw [Nat.div_lt_iff_lt_mul (by positivity), ← pow_add]
  calc sh.toNat < 2 ^ w := sh.isLt
    _ = 2 ^ (k + (w - k)) := by rw [Nat.add_sub_cancel' h]

/-- `j` left shifts by `k` within the width (41_datapath.md R135). -/
theorem shift_iterate {w : Nat} (k j : Nat) (p : BitVec w) :
    (fun sh : BitVec w => sh <<< k)^[j] p = p <<< (k * j) := by
  induction j with
  | zero => simp
  | succ j ih =>
    rw [Function.iterate_succ_apply', ih, ← BitVec.shiftLeft_add]
    congr 1

/-- The index of position `j`, after `j` shifts, is group `j` (41_datapath.md R137). -/
theorem topBits_shift {w : Nat} (p : BitVec w) {k j : Nat} (h : k * (j + 1) ≤ w) :
    topBits (p <<< (k * j)) k = groupAt w k p.toNat j := by
  have hk : k ≤ w := le_trans (Nat.le_mul_of_pos_right k (Nat.succ_pos j)) h
  rw [topBits_eq _ hk, BitVec.toNat_shiftLeft, Nat.shiftLeft_eq, groupAt]
  obtain ⟨b, hb⟩ : ∃ b, w = k * j + (b + k) := ⟨w - k * (j + 1), by rw [Nat.mul_succ] at h ⊢; omega⟩
  have e1 : w - k = k * j + b := by omega
  have e2 : w - k * (j + 1) = b := by rw [Nat.mul_succ]; omega
  generalize p.toNat = v
  subst hb
  rw [e1, e2, Nat.mul_comm v, pow_add 2 (k * j) (b + k), Nat.mul_mod_mul_left, pow_add 2 (k * j) b,
    Nat.mul_div_mul_left _ _ (by positivity), pow_add, Nat.mod_mul_right_div_self]

theorem topBits_lt {w : Nat} (sh : BitVec w) (k : Nat) : topBits sh k < 2 ^ k := (bits sh (w - k) k).isLt

theorem groupAt_lt (w k v j : Nat) : groupAt w k v j < 2 ^ k := Nat.mod_lt _ (by positivity)

/-- One symbol and its newline, if any (41_datapath.md R144). -/
theorem State.emitSymbol_eq (s : State) (ch : Byte)
    (h : s.wrapEn = true → s.col.toNat < s.wrapWidth.toNat) :
    s.emitSymbol ch =
      { s with
        out := s.out ++ ch :: newlineAfter s.params.nlChar s.wrapEn s.wrapWidth.toNat (s.col.toNat + 1)
        col := BitVec.ofNat 16 (columnAfter s.wrapEn s.wrapWidth.toNat s.col.toNat 1) } := by
  cases he : s.wrapEn
  · simp only [State.emitSymbol, State.emit_wrapEn, he, newlineAfter, columnAfter, Bool.false_eq_true,
      false_and, if_false]
    simp [State.emit]
  · have hc := h he
    have hw : s.wrapWidth.toNat < 2 ^ 16 := s.wrapWidth.isLt
    have hcol : (s.col + 1).toNat = s.col.toNat + 1 := by
      rw [BitVec.toNat_add]
      exact Nat.mod_eq_of_lt (show s.col.toNat + 1 < 2 ^ 16 by omega)
    have hiff : s.col + 1 = s.wrapWidth ↔ s.col.toNat + 1 = s.wrapWidth.toNat := by
      rw [← BitVec.toNat_inj, hcol]
    rw [newlineAfter_of_lt _ _ hc]
    by_cases hl : s.col.toNat + 1 = s.wrapWidth.toNat
    · simp only [State.emitSymbol, State.emit_wrapEn, he, State.setCol_col, State.setCol_wrapWidth,
        State.emit_wrapWidth, State.emit_col, hiff.2 hl, hl, columnAfter, if_true, and_self, Nat.mod_self]
      simp [State.emit, State.setCol]
    · have hlt : s.col.toNat + 1 < s.wrapWidth.toNat := by omega
      have hne : ¬ s.col + 1 = s.wrapWidth := fun h' => hl (hiff.1 h')
      have : s.col + 1 = BitVec.ofNat 16 (s.col.toNat + 1) := by
        rw [← BitVec.toNat_inj, hcol, BitVec.toNat_ofNat, Nat.mod_eq_of_lt (by omega)]
      simp only [State.emitSymbol, State.emit_wrapEn, he, State.setCol_col, State.setCol_wrapWidth,
        State.emit_wrapWidth, State.emit_col, hne, hl, columnAfter, if_true, if_false, and_false,
        Nat.mod_eq_of_lt hlt, ← this]
      simp [State.emit, State.setCol]

/-- The loop of EmitChunk (41_datapath.md R147): the characters of the positions `j` to `j + n - 1`, in order, each with
its newline, if any; no register but OUT and COL changes. -/
theorem emitPositions_eq {w : Nat} (r n j : Nat) (sh : BitVec w) (s : State)
    (h : s.wrapEn = true → s.col.toNat < s.wrapWidth.toNat) :
    emitPositions r n j sh s =
      { s with
        out := s.out ++ lines s.params.nlChar s.wrapEn s.wrapWidth.toNat s.col.toNat n fun i =>
          s.positionChar r (j + i) (topBits (sh <<< (s.bitWidth * i)) s.bitWidth)
        col := BitVec.ofNat 16 (columnAfter s.wrapEn s.wrapWidth.toNat s.col.toNat n) } := by
  induction n generalizing j sh s with
  | zero =>
    have : BitVec.ofNat 16 (columnAfter s.wrapEn s.wrapWidth.toNat s.col.toNat 0) = s.col := by
      unfold columnAfter
      split
      · rw [Nat.add_zero, Nat.mod_eq_of_lt (h ‹_›)]; simp
      · simp
    simp [emitPositions, this]
  | succ n ih =>
    set ch := s.positionChar r j (topBits sh s.bitWidth) with hch
    set c1 := columnAfter s.wrapEn s.wrapWidth.toNat s.col.toNat 1 with hc1
    have hw : s.wrapWidth.toNat < 2 ^ 16 := s.wrapWidth.isLt
    have hc1lt : c1 < 2 ^ 16 := by
      rw [hc1, columnAfter]
      split
      · exact lt_trans (Nat.mod_lt _ (by have := h ‹_›; omega)) hw
      · exact s.col.isLt
    have hcol : (BitVec.ofNat 16 c1).toNat = c1 := by
      rw [BitVec.toNat_ofNat, Nat.mod_eq_of_lt hc1lt]
    rw [emitPositions, ← hch, State.emitSymbol_eq s ch h, ← hc1, ih]
    · have hbw : ∀ (o : List Byte) (c : BitVec 16), ({ s with out := o, col := c } : State).bitWidth = s.bitWidth :=
        fun _ _ => rfl
      have hpc : ∀ (o : List Byte) (c : BitVec 16),
          ({ s with out := o, col := c } : State).positionChar = s.positionChar := fun _ _ => rfl
      have hwe : ∀ (o : List Byte) (c : BitVec 16), ({ s with out := o, col := c } : State).wrapEn = s.wrapEn :=
        fun _ _ => rfl
      have hww : ∀ (o : List Byte) (c : BitVec 16),
          ({ s with out := o, col := c } : State).wrapWidth = s.wrapWidth := fun _ _ => rfl
      simp only [hbw, hpc, hwe, hww, lines_succ, hcol]
      have hf : (fun i => s.positionChar r (j + 1 + i)
            (topBits (sh <<< s.bitWidth <<< (s.bitWidth * i)) s.bitWidth)) =
          fun i => s.positionChar r (j + (i + 1))
            (topBits (sh <<< (s.bitWidth * (i + 1))) s.bitWidth) := by
        funext i
        rw [← BitVec.shiftLeft_add, Nat.mul_succ, Nat.add_comm (s.bitWidth * i), Nat.add_assoc j 1 i,
          Nat.add_comm 1 i]
      have hline : lines s.params.nlChar s.wrapEn s.wrapWidth.toNat c1 n
            (fun i => s.positionChar r (j + (i + 1)) (topBits (sh <<< (s.bitWidth * (i + 1))) s.bitWidth)) =
          lines s.params.nlChar s.wrapEn s.wrapWidth.toNat (s.col.toNat + 1) n
            fun i => s.positionChar r (j + (i + 1)) (topBits (sh <<< (s.bitWidth * (i + 1))) s.bitWidth) := by
        cases he : s.wrapEn
        · simp [lines_false]
        · rw [hc1, he, columnAfter, if_pos rfl, lines_mod]
      have hcc : columnAfter s.wrapEn s.wrapWidth.toNat c1 n =
          columnAfter s.wrapEn s.wrapWidth.toNat s.col.toNat (n + 1) := by
        rw [hc1]
        unfold columnAfter
        split
        · rw [Nat.mod_add_mod, Nat.add_assoc, Nat.add_comm 1 n]
        · rfl
      rw [hf, hline, hcc]
      simp [hch]
    · intro he
      have : (BitVec.ofNat 16 c1).toNat < s.wrapWidth.toNat := by
        rw [hcol, hc1, show s.wrapEn = true from he, columnAfter, if_pos rfl]
        exact Nat.mod_lt _ (by have := h he; omega)
      exact this

/-! ### What each procedure can do, in every state -/

/-- The characters a command may emit: the newline, the pad symbol, or the symbol of a `k`-bit
index (10_state.md R46). -/
def State.Emittable (s : State) (ch : Byte) : Prop :=
  ch = s.params.nlChar ∨ ch = s.padSym ∨ ∃ i < 2 ^ s.bitWidth, ch = s.symbol i

theorem State.positionChar_emittable (s : State) (r j : Nat) {i : Nat} (h : i < 2 ^ s.bitWidth) :
    s.Emittable (s.positionChar r j i) := by
  unfold State.positionChar
  split
  · exact .inr (.inr ⟨i, h, rfl⟩)
  · exact .inr (.inl rfl)

/-- EmitSymbol changes OUT and COL alone (41_datapath.md R144). -/
theorem State.emitSymbol_shape (s : State) (ch : Byte) : ∃ nl c, (∀ x ∈ nl, x = s.params.nlChar) ∧
    s.emitSymbol ch = { s with out := s.out ++ ch :: nl, col := c } := by
  by_cases he : s.wrapEn = true
  · by_cases hl : s.col + 1 = s.wrapWidth
    · refine ⟨[s.params.nlChar], 0, by simp, ?_⟩
      simp only [State.emitSymbol, State.emit_wrapEn, he, State.setCol_col, State.setCol_wrapWidth,
        State.emit_wrapWidth, State.emit_col, hl, if_true]
      simp [State.emit, State.setCol]
    · refine ⟨[], s.col + 1, by simp, ?_⟩
      simp only [State.emitSymbol, State.emit_wrapEn, he, State.setCol_col, State.setCol_wrapWidth,
        State.emit_wrapWidth, State.emit_col, hl, if_true, if_false]
      simp [State.emit, State.setCol]
  · refine ⟨[], s.col, by simp, ?_⟩
    simp only [State.emitSymbol, State.emit_wrapEn, he]
    simp [State.emit]

/-- The loop of EmitChunk changes OUT and COL alone, whatever the state. -/
theorem emitPositions_shape {w : Nat} (r n j : Nat) (sh : BitVec w) (s : State) :
    ∃ o c, (∀ x ∈ o, s.Emittable x) ∧
      emitPositions r n j sh s = { s with out := s.out ++ o, col := c } := by
  induction n generalizing j sh s with
  | zero => exact ⟨[], s.col, by simp, by simp [emitPositions]⟩
  | succ n ih =>
    obtain ⟨nl, c, hnl, h⟩ := s.emitSymbol_shape (s.positionChar r j (topBits sh s.bitWidth))
    rw [emitPositions, h]
    obtain ⟨o', c', ho', h'⟩ := ih (j + 1) (sh <<< s.bitWidth)
      { s with out := s.out ++ s.positionChar r j (topBits sh s.bitWidth) :: nl, col := c }
    refine ⟨s.positionChar r j (topBits sh s.bitWidth) :: nl ++ o', c', ?_, by rw [h']; simp⟩
    intro x hx
    rcases List.mem_append.1 hx with hx | hx
    · rcases List.mem_cons.1 hx with rfl | hx
      · exact s.positionChar_emittable r j (topBits_lt sh s.bitWidth)
      · exact .inl (hnl x hx)
    · exact ho' x hx

/-- With a valid configuration the emitted symbols are entries of the configured alphabet (10_state.md R46). -/
theorem State.Emittable.entry {s : State} {ch : Byte} (h : s.Emittable ch) (hv : s.configValid = true)
    (hl : s.alphabet.length = s.params.alphaMax) :
    ch = s.params.nlChar ∨ ch = s.padSym ∨ ∃ i < 2 ^ s.bitWidth, s.alphabet[i]? = some ch := by
  rcases h with h | h | ⟨i, hi, rfl⟩
  · exact .inl h
  · exact .inr (.inl h)
  · have hm : i < s.params.alphaMax := lt_of_lt_of_le hi (State.configValid_arith hv).2.2.2.2.2.2.2
    exact .inr (.inr ⟨i, hi, State.alphabet_of_lt (hl ▸ hm)⟩)

/-- EmitChunk changes OUT, COL, ACC and BYTE_CNT alone, and clears the last two (41_datapath.md R147). -/
theorem State.emitChunk_shape (s : State) (r : Nat) : ∃ o c, (∀ x ∈ o, s.Emittable x) ∧
    s.emitChunk r = { s with out := s.out ++ o, col := c, acc := 0, byteCnt := 0 } := by
  obtain ⟨o, c, ho, h⟩ := emitPositions_shape r s.syms 0 s.packed s
  exact ⟨o, c, ho, by rw [State.emitChunk, h]; rfl⟩

/-- FinishLine emits at most the newline, and clears the column with it (41_datapath.md R148). -/
theorem State.finishLine_shape (s : State) : ∃ o c, (o = [] ∨ o = [s.params.nlChar]) ∧
    s.finishLine = { s with out := s.out ++ o, col := c } := by
  unfold State.finishLine
  split
  · exact ⟨[s.params.nlChar], 0, .inr rfl, rfl⟩
  · exact ⟨[], s.col, .inl rfl, by simp⟩

/-- PUSH's effect changes the datapath and OUT alone (42_stream.md R160, R161). -/
theorem pushEffect_shape (b : Byte) (s : State) : ∃ o c a n, (∀ x ∈ o, s.Emittable x) ∧
    pushEffect b s = { s with out := s.out ++ o, col := c, acc := a, byteCnt := n } := by
  unfold pushEffect
  simp only []
  split
  · obtain ⟨o, c, ho, h⟩ := (s.accInsert b).emitChunk_shape (s.accInsert b).chunk
    exact ⟨o, c, 0, 0, ho, by rw [h]; rfl⟩
  · exact ⟨[], s.col, _, _, by simp, by rw [List.append_nil]; rfl⟩

/-- END's effect changes the datapath, OUT and STATE alone (42_stream.md R166, R167). -/
theorem endEffect_shape (s : State) : ∃ o c a n, (∀ x ∈ o, s.Emittable x) ∧
    endEffect s = { s with state := .done, out := s.out ++ o, col := c, acc := a, byteCnt := n } := by
  have hf : ∃ o c a n, (∀ x ∈ o, s.Emittable x) ∧
      s.flushChunk = { s with out := s.out ++ o, col := c, acc := a, byteCnt := n } := by
    unfold State.flushChunk
    split
    · obtain ⟨o, c, ho, h⟩ := s.emitChunk_shape s.byteCnt.toNat
      exact ⟨o, c, 0, 0, ho, h⟩
    · exact ⟨[], s.col, s.acc, s.byteCnt, by simp, by simp⟩
  obtain ⟨o, c, a, n, ho, h⟩ := hf
  obtain ⟨o', c', ho', h'⟩ := s.flushChunk.finishLine_shape
  refine ⟨o ++ o', c', a, n, ?_, ?_⟩
  · intro x hx
    rcases List.mem_append.1 hx with hx | hx
    · exact ho x hx
    · rcases ho' with rfl | rfl
      · simp at hx
      · exact .inl (by simpa [h] using hx)
  · unfold endEffect
    simp only []
    rw [h', h]
    simp [State.setStatus]

/-! ### No command looks at the inputs still to come -/

theorem State.emitSymbol_setInput (s : State) (ch : Byte) (r : List Input) :
    (s.setInput r).emitSymbol ch = (s.emitSymbol ch).setInput r := by
  show (if s.wrapEn = true then (if s.col + 1 = s.wrapWidth then _ else _) else _) =
    State.setInput (if s.wrapEn = true then (if s.col + 1 = s.wrapWidth then _ else _) else _) r
  split
  · split <;> rfl
  · rfl

theorem emitPositions_setInput {w : Nat} (r n j : Nat) (sh : BitVec w) (s : State) (q : List Input) :
    emitPositions r n j sh (s.setInput q) = (emitPositions r n j sh s).setInput q := by
  induction n generalizing j sh s with
  | zero => rfl
  | succ n ih =>
    simp only [emitPositions]
    rw [← ih, ← State.emitSymbol_setInput]
    rfl

theorem State.emitChunk_setInput (s : State) (r : Nat) (q : List Input) :
    (s.setInput q).emitChunk r = (s.emitChunk r).setInput q := by
  show (emitPositions r s.syms 0 s.packed (s.setInput q)).setChunk 0 0 = _
  rw [emitPositions_setInput]
  rfl

theorem State.finishLine_setInput (s : State) (q : List Input) :
    (s.setInput q).finishLine = s.finishLine.setInput q := by
  show (if s.wrapEn = true ∧ s.col ≠ 0 then _ else _) = State.setInput (if s.wrapEn = true ∧ s.col ≠ 0 then _ else _) q
  split <;> rfl

theorem State.raise_setInput (s : State) (e : ErrCode) (q : List Input) :
    (s.setInput q).raise e = (s.raise e).setInput q := by
  show (if s.state = .error then _ else _) = State.setInput (if s.state = .error then _ else _) q
  split <;> rfl

theorem pushEffect_setInput (b : Byte) (s : State) (q : List Input) :
    pushEffect b (s.setInput q) = (pushEffect b s).setInput q := by
  show (if (s.accInsert b).byteCnt.toNat = (s.accInsert b).chunk then _ else _) =
    State.setInput (if (s.accInsert b).byteCnt.toNat = (s.accInsert b).chunk then _ else _) q
  split
  · exact State.emitChunk_setInput (s.accInsert b) _ q
  · rfl

theorem endEffect_setInput (s : State) (q : List Input) : endEffect (s.setInput q) = (endEffect s).setInput q := by
  have hf : (s.setInput q).flushChunk = s.flushChunk.setInput q := by
    show (if 0 < s.byteCnt.toNat then _ else _) = State.setInput (if 0 < s.byteCnt.toNat then _ else _) q
    split
    · exact State.emitChunk_setInput s _ q
    · rfl
  unfold endEffect
  simp only []
  rw [hf, State.finishLine_setInput]
  rfl

theorem effectOf_setInput (i : Instr) (s : State) (q : List Input) :
    effectOf i (s.setInput q) = (effectOf i s).setInput q := by
  cases i with
  | wrcsr csr value =>
    simp only [effectOf, wrcsrEffect]
    split
    · rename_i c _; cases c <;> rfl
    · rfl
  | rdcsr csr => simp only [effectOf, rdcsrEffect]; split <;> rfl
  | wralpha index sym => rfl
  | start =>
    simp only [effectOf, startEffect, State.setInput_configValid]
    by_cases h : s.configValid = true <;> simp only [h] <;> rfl
  | push b => exact pushEffect_setInput b s q
  | endStream => exact endEffect_setInput s q
  | rderr => exact State.raise_setInput s _ q
  | wrerr => exact State.raise_setInput s _ q

/-- A command does the same whatever is still to come (60_exceptions.md R197: a step consumes one word). -/
theorem exec_setInput {i : Instr} {s t : State} (q : List Input) (h : exec i s = .next t) :
    exec i (s.setInput q) = .next (t.setInput q) := by
  rw [exec_eq_perform] at h ⊢
  unfold perform at h ⊢
  rw [State.setInput_state, State.setInput_params]
  cases ha : admission s.params i s.state <;> rw [ha] at h <;> cases h
  · exact congrArg _ (State.raise_setInput ..)
  · rfl
  · exact congrArg _ (State.raise_setInput ..)
  · exact congrArg _ (effectOf_setInput ..)

/-! ### One byte of ACC -/

/-- A byte field written into ACC, bit by bit (41_datapath.md R132). -/
theorem insertByte_getLsbD (acc : BitVec Config.accRoom) (lo : Nat) (b : Byte) (i : Nat) (h : i < 56) :
    (insertByte acc lo b).getLsbD i =
      if lo ≤ i ∧ i < lo + 8 then b.getLsbD (i - lo) else acc.getLsbD i := by
  have h255 : (0xFF#8).getLsbD (i - lo) = decide (i - lo < 8) := by
    rcases lt_or_ge (i - lo) 8 with hi | hi
    · generalize i - lo = k at hi
      interval_cases k <;> rfl
    · rw [BitVec.getLsbD_of_ge _ _ hi]
      simp; omega
  have hw : i - lo < 56 := by omega
  simp only [insertByte, BitVec.getLsbD_or, BitVec.getLsbD_and, BitVec.getLsbD_not, BitVec.getLsbD_shiftLeft,
    BitVec.getLsbD_setWidth, h255, h, hw, decide_true, Bool.true_and]
  by_cases h1 : i < lo
  · simp [h1, show ¬ lo ≤ i by omega]
  · by_cases h2 : i < lo + 8
    · simp [h1, show lo ≤ i by omega, h2, show i - lo < 8 by omega]
    · simp [h1, h2, show ¬ i - lo < 8 by omega, BitVec.getLsbD_of_ge b (i - lo) (by omega)]

/-- A byte written into a field of zeros adds to ACC (41_datapath.md R132, R133). -/
theorem insertByte_of_zero (acc : BitVec Config.accRoom) (lo : Nat) (b : Byte) (h : lo + 8 ≤ 56)
    (h0 : ∀ i, lo ≤ i → i < lo + 8 → acc.getLsbD i = false) :
    insertByte acc lo b = acc + BitVec.ofNat 56 (b.toNat * 2 ^ lo) := by
  have hs : ∀ i < 56, (b.setWidth 56 <<< lo).getLsbD i =
      if lo ≤ i ∧ i < lo + 8 then b.getLsbD (i - lo) else false := by
    intro i hi
    have hw : i - lo < 56 := by omega
    simp only [BitVec.getLsbD_shiftLeft, BitVec.getLsbD_setWidth, hi, hw, decide_true, Bool.true_and]
    by_cases h1 : i < lo
    · simp [h1, show ¬ lo ≤ i by omega]
    · by_cases h2 : i < lo + 8
      · simp [h1, show lo ≤ i by omega, h2]
      · simp [h1, h2, BitVec.getLsbD_of_ge b (i - lo) (by omega)]
  have hadd : (BitVec.ofNat 56 (b.toNat * 2 ^ lo)) = b.setWidth 56 <<< lo := by
    rw [← BitVec.toNat_inj]
    simp [Nat.shiftLeft_eq]
  rw [hadd, BitVec.add_eq_or_of_and_eq_zero]
  · apply BitVec.eq_of_getLsbD_eq
    intro i hi
    rw [insertByte_getLsbD _ _ _ _ hi, BitVec.getLsbD_or, hs i hi]
    by_cases hf : lo ≤ i ∧ i < lo + 8
    · simp [hf, h0 i hf.1 hf.2]
    · simp [hf]
  · apply BitVec.eq_of_getLsbD_eq
    intro i hi
    rw [BitVec.getLsbD_and, hs i hi]
    by_cases hf : lo ≤ i ∧ i < lo + 8
    · simp [hf, h0 i hf.1 hf.2]
    · simp [hf]

end Sys2Proof.Machine
end

