-- ==== Sys2Proof/Laws/PerInstr.lean ====
section
/-! SUPPORT. The laws stated per command, one lemma per constructor of `Instr`. -/

namespace Sys2Proof.Laws.RowMatch

/-- The mask of a command's row in spec/opcode_table.json (30_encoding.md R82). -/
def rowMask : Instr → Word
  | .wrcsr _ _ => 0xF0000000
  | .rdcsr _ => 0xF0FFFFFF
  | .wralpha _ _ => 0xFFFF0000
  | .start => 0xFFFFFFFF
  | .push _ => 0xFFFFFF00
  | .endStream => 0xFFFFFFFF
  | .rderr => 0xFFFFFFFF
  | .wrerr => 0xFFFFFFFF

/-- The match value of a command's row in spec/opcode_table.json (30_encoding.md R82). -/
def rowMatch : Instr → Word
  | .wrcsr _ _ => 0x10000000
  | .rdcsr _ => 0x20000000
  | .wralpha _ _ => 0x30000000
  | .start => 0x40000000
  | .push _ => 0x50000000
  | .endStream => 0x60000000
  | .rderr => 0x70000000
  | .wrerr => 0x80000000

/-- A command's word matches the command's row of the opcode table (30_encoding.md R82). -/
def Statement (i : Instr) : Prop := encode i &&& rowMask i = rowMatch i

/-- Masking two fields side by side masks each. -/
theorem append_and {n m : Nat} (a c : BitVec n) (b d : BitVec m) :
    (a ++ b) &&& (c ++ d) = (a &&& c) ++ (b &&& d) := by
  apply BitVec.eq_of_getLsbD_eq
  intro j hj
  simp only [BitVec.getLsbD_and, BitVec.getLsbD_append]
  split <;> rfl

theorem wrcsr (csr : BitVec 4) (value : BitVec 24) : Statement (.wrcsr csr value) := by
  show (0x1#4 ++ csr ++ value) &&& (0xF#4 ++ 0#4 ++ 0#24) = _
  rw [append_and, append_and, BitVec.and_zero, BitVec.and_zero]
  rfl

theorem rdcsr (csr : BitVec 4) : Statement (.rdcsr csr) := by
  show (0x2#4 ++ csr ++ 0#24) &&& (0xF#4 ++ 0#4 ++ 0xFFFFFF#24) = _
  rw [append_and, append_and, BitVec.and_zero]
  rfl

theorem wralpha (index sym : Byte) : Statement (.wralpha index sym) := by
  show (0x3#4 ++ 0#12 ++ index ++ sym) &&& (0xF#4 ++ 0xFFF#12 ++ 0#8 ++ 0#8) = _
  rw [append_and, append_and, append_and, BitVec.and_zero, BitVec.and_zero]
  rfl

theorem start : Statement .start := rfl

theorem push (byte : Byte) : Statement (.push byte) := by
  show (0x5#4 ++ 0#20 ++ byte) &&& (0xF#4 ++ 0xFFFFF#20 ++ 0#8) = _
  rw [append_and, append_and, BitVec.and_zero]
  rfl

theorem endStream : Statement .endStream := rfl

theorem rderr : Statement .rderr := rfl

theorem wrerr : Statement .wrerr := rfl

end Sys2Proof.Laws.RowMatch
end

