-- ==== Sys2Proof/Tests/Slice0.lean ====
section
/-!
SUPPORT. The model's own tests: an ill-formed command for each operand check, words written out from the encoding,
one-step vectors of 95_test_vectors.md, and for every statement with hypotheses a witness that meets them together.
-/

namespace Sys2Proof.Tests

open Sys2Proof.Machine Sys2Proof.Safety Sys2Proof.Claims

/-! ### Small states -/

/-- The next state of an outcome. -/
def after (o : Host.Outcome State Fault Refusal) : Option State :=
  match o with
  | .next t => some t
  | .fault _ => none
  | .refused _ => none

/-- An alphabet from the codes of its first symbols; zero beyond them. -/
def table (f : Nat → Nat) : List Byte := (List.range 64).map fun i => BitVec.ofNat 8 (f i)

/-- The base64 alphabet of 91_not_in_source.md N13. -/
def base64 : List Byte :=
  table fun i =>
    if i < 26 then 65 + i else if i < 52 then 71 + i else if i < 62 then i - 4 else if i = 62 then 43 else 47

/-- "0123456789abcdef". -/
def base16 : List Byte := table fun i => if i < 10 then 48 + i else 87 + i

/-- Configuration B64W of 95_test_vectors.md: k = 6, pad '=', wrap 76; in the given session state. -/
def b64w (st : SessionState) (acc : BitVec 56) (byteCnt : BitVec 3) (col : BitVec 16) : State :=
  { State.reset with
    state := st, errCode := if st = .error then .configError else .none, mode := 0x3D0106, wrap := 0x01004C,
    alen := 64, alphabet := base64, acc := acc, byteCnt := byteCnt, col := col }

/-- Configuration B16 with wrap 3: k = 4, no pad (95_test_vectors.md V-W6). -/
def b16w3 (st : SessionState) (col : BitVec 16) : State :=
  { State.reset with
    state := st, mode := 0x000004, wrap := 0x010003, alen := 16, alphabet := base16, col := col }

/-- Configuration B8 without wrap: k = 3, pad '='. -/
def b8 (st : SessionState) (acc : BitVec 56) (byteCnt : BitVec 3) : State :=
  { State.reset with
    state := st, mode := 0x3D0103, alen := 8, alphabet := base16, acc := acc, byteCnt := byteCnt }

/-- A build whose parameters are none of the defaults: k = 5 and k = 8, an 8-bit WIDTH, and newlines of CR (00_scope.md R7). -/
def build32 : Params where
  widths := [5, 8]
  wrapBits := 8
  nlChar := 0x0D

/-- k = 5 in that build, pad '=', wrap 4, with the alphabet A to Z, 2 to 7. -/
def b32w4 (st : SessionState) (acc : BitVec 56) (byteCnt : BitVec 3) : State :=
  { State.resetOf build32 with
    state := st, mode := 0x3D0105, wrap := 0x010004, alen := 32, acc := acc, byteCnt := byteCnt
    alphabet := (List.range 256).map fun i => BitVec.ofNat 8 (if i < 26 then 65 + i else 24 + i) }

/-- A state about to take a word off CMD. -/
def fed (s : State) (w : Word) : State := s.offer w

/-! ### Ill-formed commands: one for each operand check (30_encoding.md R90) -/

theorem test_wellFormed_refuses_readOnly_csr : (Instr.wrcsr 3 0).operandFault .default = some .csrNotWritable := by decide
theorem test_wellFormed_refuses_reserved_csr : (Instr.wrcsr 15 0).operandFault .default = some .csrNotWritable := by decide
theorem test_wellFormed_refuses_mode_bits_7_4 : (Instr.wrcsr 0 0x000010).operandFault .default = some .reservedBits := by decide
theorem test_wellFormed_refuses_mode_bits_15_9 : (Instr.wrcsr 0 0x008000).operandFault .default = some .reservedBits := by
  decide
theorem test_wellFormed_refuses_wrap_bits : (Instr.wrcsr 1 0x020000).operandFault .default = some .reservedBits := by decide
theorem test_wellFormed_refuses_alen_bits : (Instr.wrcsr 2 0x000200).operandFault .default = some .reservedBits := by decide
theorem test_wellFormed_refuses_rdcsr_7 : (Instr.rdcsr 7).operandFault .default = some .csrReserved := by decide
theorem test_wellFormed_refuses_wralpha_64 : (Instr.wralpha 64 0).operandFault .default = some .noAlphabetEntry := by decide
theorem test_wellFormed_accepts_bounds :
    (Instr.wrcsr 0 0xFF010F).WellFormed .default ∧ (Instr.wrcsr 1 0x01FFFF).WellFormed .default ∧ (Instr.wrcsr 2 0x0001FF).WellFormed .default ∧
    (Instr.rdcsr 6).WellFormed .default ∧ (Instr.wralpha 63 0xFF).WellFormed .default := by decide

/-! ### Words written out from the encoding (30_encoding.md R81, R89; 95_test_vectors.md sections 2 and 7) -/

/-- 0001 0000 00111101 00000001 00000110. -/
theorem test_decode_wrcsr : decode 0b00010000001111010000000100000110 = .ok (.wrcsr 0 0x3D0106) := by decide
/-- 0010 0110 and 24 zeros. -/
theorem test_decode_rdcsr : decode 0b00100110000000000000000000000000 = .ok (.rdcsr 6) := by decide
/-- 0011 000000000000 00011001 01011010 (R113). -/
theorem test_decode_wralpha : decode 0b00110000000000000001100101011010 = .ok (.wralpha 25 0x5A) := by decide
theorem test_decode_start : decode 0b01000000000000000000000000000000 = .ok .start := by decide
/-- 0101, 20 zeros, 01100110. -/
theorem test_decode_push : decode 0b01010000000000000000000001100110 = .ok (.push 0x66) := by decide
theorem test_decode_end : decode 0b01100000000000000000000000000000 = .ok .endStream := by decide
theorem test_decode_rderr : decode 0b01110000000000000000000000000000 = .ok .rderr := by decide
theorem test_decode_wrerr : decode 0b10000000000000000000000000000000 = .ok .wrerr := by decide
/-- 95_test_vectors.md section 2: reserved opcodes and nonzero "zero" fields. -/
theorem test_decode_refuses :
    decode 0x00000000 = .error .reservedOpcode ∧ decode 0x90000000 = .error .reservedOpcode ∧
    decode 0xFFFFFFFF = .error .reservedOpcode ∧ decode 0x20000001 = .error .zeroField ∧
    decode 0x30010000 = .error .zeroField ∧ decode 0x50000100 = .error .zeroField ∧
    decode 0x40000001 = .error .zeroField ∧ decode 0x60000001 = .error .zeroField ∧
    decode 0x70000001 = .error .zeroField ∧ decode 0x80000001 = .error .zeroField := by decide
/-- The table's words, through the host's reading of the table. -/
theorem test_decodeTableWord :
    decodeTableWord 32 0x10000000 = some (.wrcsr 0 0) ∧ decodeTableWord 32 0x20000000 = some (.rdcsr 0) ∧
    decodeTableWord 32 0x30000000 = some (.wralpha 0 0) ∧ decodeTableWord 32 0x40000000 = some .start ∧
    decodeTableWord 32 0x50000000 = some (.push 0) ∧ decodeTableWord 32 0x60000000 = some .endStream ∧
    decodeTableWord 32 0x70000000 = some .rderr ∧ decodeTableWord 32 0x80000000 = some .wrerr := by decide
/-- A placed word runs as the very next step: START straight after reset is a CONFIG_ERROR (95_test_vectors.md V-C4). -/
theorem test_withFetchWord :
    (after (step (State.reset.withFetchWord 32 0x40000000))).map (fun t => (t.state, t.errCode, t.input)) =
      some (.error, .configError, []) := by decide

/-! ### One step of each command -/

/-- 95_test_vectors.md V-C2. -/
theorem test_wrcsr_mode :
    (after (step (fed State.reset 0x103D0106))).map (fun t => (t.state, t.mode)) = some (.idle, 0x3D0106) := by decide
/-- V-C12. -/
theorem test_wrcsr_active :
    (after (step (fed (b64w .active 0 0 0) 0x10000004))).map (fun t => (t.statusWord, t.mode)) =
      some (0x53, 0x3D0106) := by decide
/-- V-C18 and 40_config.md R109: ACC, from MSB-first bytes 66 6F. -/
theorem test_rdcsr_acc :
    (after (step (fed (b64w .active 0x666F00 2 0) 0x25000000))).map (·.resp) = some [0x00666F00] := by decide
/-- V-C21: an illegal RDCSR in ERROR responds nothing and keeps the code. -/
theorem test_rdcsr_error :
    (after (step (fed (b64w .error 0 0 0) 0x27000000))).map (fun t => (t.resp, t.statusWord)) = some ([], 0x13) := by
  decide
/-- 40_config.md R113: entry 25 and no neighbour. -/
theorem test_wralpha_entry :
    (after (step (fed (b16w3 .idle 0) 0x3000195A))).map (fun t => [t.symbol 24, t.symbol 25, t.symbol 26]) =
      some [111, 0x5A, 113] := by decide
/-- V-C22. -/
theorem test_wralpha_64 :
    (after (step (fed (b64w .idle 0 0 0) 0x30004078))).map (fun t => (t.statusWord, t.symbol 0)) =
      some (0x43, 65) := by decide
/-- V-C6. -/
theorem test_start_valid :
    (after (step (fed (b64w .idle 0 0 0) 0x40000000))).map (·.statusWord) = some 0x01 := by decide
/-- V-C5: ALEN = 63. -/
theorem test_start_invalid :
    (after (step (fed { b64w .idle 0 0 0 with alen := 63 } 0x40000000))).map (·.statusWord) = some 0x13 := by
  decide
/-- 42_stream.md R163: the third byte of "foo" emits Zm9v, and COL = 4. -/
theorem test_push_fills :
    (after (step (fed (b64w .active 0x666F00 2 0) 0x5000006F))).map (fun t => (t.out, t.col, t.byteCnt, t.acc)) =
      some ([0x5A, 0x6D, 0x39, 0x76], 4, 0, 0) := by decide
/-- V-W6, second PUSH: the wrap splits the chunk. -/
theorem test_push_wraps :
    (after (step (fed (b16w3 .active 2) 0x5000006F))).map (fun t => (t.out, t.col)) =
      some ([0x36, 0x0A, 0x66], 1) := by decide
/-- 42_stream.md R170: END after "fo" emits Zm8= and the newline. -/
theorem test_end_short_chunk :
    (after (step (fed (b64w .active 0x666F00 2 0) 0x60000000))).map (fun t => (t.out, t.statusWord, t.col)) =
      some ([0x5A, 0x6D, 0x38, 0x3D, 0x0A], 0x02, 0) := by decide
/-- V-D14: position 2 straddles the byte and the fill, and is real. -/
theorem test_end_straddling_position :
    (after (step (fed (b8 .active 0xFF0000 1) 0x60000000))).map (·.out) =
      some [0x37, 0x37, 0x36, 0x3D, 0x3D, 0x3D, 0x3D, 0x3D] := by decide
/-- 43_error_reports.md R182: the partial chunk stays in ACC and COUNT. -/
theorem test_rderr_active :
    (after (step (fed (b64w .active 0x660000 1 4) 0x70000000))).map
      (fun t => (t.statusWord, t.acc, t.countWord, t.out)) = some (0x23, 0x660000, 0x00040001, []) := by decide
/-- V-R4. -/
theorem test_rderr_idle : (after (step (fed State.reset 0x70000000))).map (·.statusWord) = some 0x23 := by decide
/-- V-R5. -/
theorem test_wrerr_done :
    (after (step (fed (b64w .done 0 0 0) 0x80000000))).map (·.statusWord) = some 0x33 := by decide
/-- V-R2: the first error is kept. -/
theorem test_wrerr_error :
    (after (step (fed (b64w .error 0 0 0) 0x80000000))).map (·.statusWord) = some 0x13 := by decide
/-- V-H1: reset drops the partial chunk and empties OUT and RESP. -/
theorem test_rst :
    (after (step { b64w .active 0x660000 1 4 with input := [.rst], out := [0x5A], resp := [1] })).map
      (fun t => (t.statusWord, t.countWord, t.out, t.resp)) = some (0, 0, [], []) := by decide

/-! ### Another build (00_scope.md R7, R8; worked by hand from 41_datapath.md R137, R140 and R144) -/

/-- R8's row k = 5 and the derived parameters: C_MAX = 5, ACC_BITS = 40, ALPHA_MAX = 256. -/
theorem test_build_parameters :
    build32.supportedK = [5, 8] ∧ build32.cMax = 5 ∧ build32.accBits = 40 ∧ build32.alphaMax = 256 := by decide
/-- 0x66 is 01100 110(00): 'M' and 'Y' are real, six positions are padding, and each line of four ends in CR. -/
theorem test_build_end :
    (after (step (fed (b32w4 .active 0x6600000000 1) 0x60000000))).map (fun t => (t.out, t.statusWord)) =
      some ([0x4D, 0x59, 0x3D, 0x3D, 0x0D, 0x3D, 0x3D, 0x3D, 0x3D, 0x0D], 0x02) := by decide
/-- k = 5 starts a session in that build and is a CONFIG_ERROR in the default one (93_implementation_defined.md U15). -/
theorem test_build_start :
    (after (step (fed (b32w4 .idle 0 0) 0x40000000))).map (·.statusWord) = some 0x01 ∧
    (after (step (fed { b32w4 .idle 0 0 with params := .default } 0x40000000))).map (·.statusWord) = some 0x13 := by
  decide
/-- Index 255 has an entry there (30_encoding.md R90 item 5). -/
theorem test_build_wralpha :
    (after (step (fed (b32w4 .idle 0 0) 0x3000FF41))).map (fun t => (t.state, t.symbol 255)) = some (.idle, 0x41) := by
  decide

/-! ### Lines of assembler text (30_encoding.md R94 to R98; words from 95_test_vectors.md section 7) -/

theorem test_assemble_setmode :
    assembleLine ['S', 'E', 'T', 'M', 'O', 'D', 'E', ' ', '6', ',', ' ', '\'', '=', '\'', ' ', ';', ' ', 'x'] =
      some [0x103D0106] := by decide
theorem test_assemble_setwrap :
    assembleLine ['s', 'e', 't', 'w', 'r', 'a', 'p', ' ', '7', '6'] = some [0x1101004C] := by decide
theorem test_assemble_loadalpha :
    assembleLine ['L', 'O', 'A', 'D', 'A', 'L', 'P', 'H', 'A', ' ', '"', '0', '1', '"'] =
      some [0x30000030, 0x30000131, 0x12000002] := by decide
theorem test_assemble_push_misfit :
    assembleLine ['P', 'U', 'S', 'H', ' ', '2', '5', '6'] = none := by decide
theorem test_assemble_chunk :
    assembleLine ['C', 'H', 'U', 'N', 'K', ' ', '3', ',', '1', ',', '0', 'x', '6', '6'] =
      some [0x50000066, 0x60000000] := by decide

/-! ### Witnesses: for every statement with hypotheses, values that meet them together -/

/-- An outcome whose next state passes a check is a next state that does. -/
theorem next_of {o : Host.Outcome State Fault Refusal} (p : State → Bool) (h : (after o).map p = some true) :
    ∃ t, o = .next t ∧ p t = true := by
  cases o with
  | next t => exact ⟨t, rfl, by simpa [after] using h⟩
  | fault r => simp [after] at h
  | refused r => simp [after] at h

/-- The invariant in a session with one byte of a chunk read and four symbols on the line. -/
theorem inv_active_one : Inv (b64w .active 0x660000 1 4) where
  modeReserved := by decide
  wrapReserved := by decide
  alenReserved := by decide
  alphabetSize := by decide
  accWidth := by decide
  colWidth := by decide
  codeNone := by decide
  config := fun _ => by decide
  count := fun _ => by decide
  column := fun _ _ => by decide
  noColumn := fun _ h => by revert h; decide
  accBits := fun _ i h => by
    have hc : (b64w .active 0x660000 1 4).chunk = 3 := by decide
    have hi : i < 56 := BitVec.lt_of_getLsbD h
    rw [hc]
    show 8 * (3 - 1) ≤ i ∧ i < 8 * 3
    revert h
    interval_cases i <;> decide
  quiet := by decide

/-- The invariant in a session of each geometry with no byte of the chunk read. -/
theorem inv_active_none (s : State) (h1 : reservedClear .mode s.mode = true) (h2 : reservedClear .wrap s.wrap = true)
    (h3 : reservedClear .alen s.alen = true) (h4 : s.state = .active) (h5 : s.errCode = .none)
    (h6 : s.configValid = true) (ha : s.alphabet.length = s.params.alphaMax) (h7 : s.acc = 0) (h8 : s.byteCnt = 0) (h9 : s.col = 0) : Inv s where
  modeReserved := h1
  wrapReserved := h2
  alenReserved := h3
  alphabetSize := ha
  accWidth := by rw [h7]; simp
  colWidth := by rw [h9]; simp
  codeNone := by simp [h4, h5]
  config := fun _ => h6
  count := fun _ => by have := State.configValid_arith h6; rw [h8]; show 0 < s.chunk; omega
  column := fun _ he => by have := State.configValid_width h6 he; rw [h9]; exact this
  noColumn := fun _ _ => h9
  accBits := fun _ i h => by rw [h7] at h; simp at h
  quiet := fun h => by rw [h4] at h; simp at h

theorem inv_b16 : Inv (b16w3 .active 0) :=
  inv_active_none _ (by decide) (by decide) (by decide) rfl rfl (by decide) (by decide) rfl rfl rfl

theorem inv_b64 : Inv (b64w .active 0 0 0) :=
  inv_active_none _ (by decide) (by decide) (by decide) rfl rfl (by decide) (by decide) rfl rfl rfl

/-- The last byte of a chunk still to come. -/
theorem inv_active_two : Inv (b64w .active 0x666F00 2 75) where
  modeReserved := by decide
  wrapReserved := by decide
  alenReserved := by decide
  alphabetSize := by decide
  accWidth := by decide
  colWidth := by decide
  codeNone := by decide
  config := fun _ => by decide
  count := fun _ => by decide
  column := fun _ _ => by decide
  noColumn := fun _ h => by revert h; decide
  accBits := fun _ i h => by
    have hc : (b64w .active 0x666F00 2 75).chunk = 3 := by decide
    have hi : i < 56 := BitVec.lt_of_getLsbD h
    rw [hc]
    show 8 * (3 - 2) ≤ i ∧ i < 8 * 3
    revert h
    interval_cases i <;> decide
  quiet := by decide

/-- The invariant does not look at the inputs. -/
theorem inv_fed {s : State} (h : Inv s) (w : Word) : Inv (fed s w) :=
  ⟨h.1, h.2, h.3, h.4, h.5, h.6, h.7, h.8, h.9, h.10, h.11, h.12, h.13⟩

/-! #### Encoding and the step -/

theorem witness_EncodingADecodedWordReturnsIt : decode 0x12000040 = .ok (.wrcsr 2 64) := by decide

theorem witness_TableRowsMatchExactlyTheirCommands :
    ("WRALPHA", 0x30000000, 0xFFFF0000) ∈ opcodeTable ∧ (0x3000FFFF#32) &&& 0xFFFF0000 = 0x30000000 := by decide

/-- Opcodes 0, 9 and 15, the bounds of the two ranges. -/
theorem witness_ReservedOpcodesRaiseIllegalCommand :
    (fed State.reset 0x0FFFFFFF).input = [.word 0x0FFFFFFF] ∧ opc 0x0FFFFFFF = 0 ∧ 9 ≤ opc 0x90000000 ∧
    9 ≤ opc 0xF0000000 ∧ ¬ 9 ≤ opc 0x8FFFFFFF ∧ opc 0x10000000 ≠ 0 := by decide

/-- One word for each item of R90, at the bound of its range. -/
theorem witness_illegalWord :
    illegalWord .default 0x00000000 ∧ illegalWord .default 0x90000000 ∧ illegalWord .default 0x26000001 ∧ illegalWord .default 0x30010000 ∧
    illegalWord .default 0x50000100 ∧ illegalWord .default 0x40000001 ∧ illegalWord .default 0x68000000 ∧ illegalWord .default 0x70000001 ∧
    illegalWord .default 0x88000000 ∧ illegalWord .default 0x13000000 ∧ illegalWord .default 0x10000010 ∧ illegalWord .default 0x10000200 ∧
    illegalWord .default 0x11020000 ∧ illegalWord .default 0x12000200 ∧ illegalWord .default 0x27000000 ∧ illegalWord .default 0x30004000 := by
  unfold illegalWord
  refine ⟨?_, ?_, ?_, ?_, ?_, ?_, ?_, ?_, ?_, ?_, ?_, ?_, ?_, ?_, ?_, ?_⟩ <;> decide

/-- The legal words beside them. -/
theorem witness_legalWord :
    ¬ illegalWord .default 0x10FF010F ∧ ¬ illegalWord .default 0x1101FFFF ∧ ¬ illegalWord .default 0x120001FF ∧ ¬ illegalWord .default 0x26000000 ∧
    ¬ illegalWord .default 0x30003FFF ∧ ¬ illegalWord .default 0x40000000 ∧ ¬ illegalWord .default 0x500000FF ∧ ¬ illegalWord .default 0x60000000 ∧
    ¬ illegalWord .default 0x70000000 ∧ ¬ illegalWord .default 0x80000000 := by
  unfold illegalWord
  refine ⟨?_, ?_, ?_, ?_, ?_, ?_, ?_, ?_, ?_, ?_⟩ <;> decide

theorem witness_IllegalCommandIsRaisedExactlyByTheFiveItems :
    (fed State.reset 0x27000000).input = .word 0x27000000 :: [] ∧ illegalWord .default 0x27000000 ∧
    (fed State.reset 0x26000000).input = .word 0x26000000 :: [] ∧ ¬ illegalWord .default 0x26000000 ∧
    (fed State.reset 0x26000000).errCode ≠ .illegalCommand :=
  ⟨rfl, by unfold illegalWord; decide, rfl, by unfold illegalWord; decide, by decide⟩

theorem witness_StepRunsTheDecodedCommand :
    (fed (b64w .active 0 0 0) 0x500000FF).input = .word 0x500000FF :: [] ∧ decode 0x500000FF = .ok (.push 0xFF) := by
  decide

theorem witness_StepRunsTheDecodedCommand_waiting :
    State.reset.input = [] ∧ ({ b64w .active 0 0 0 with input := [.rst] } : State).input = .rst :: [] := ⟨rfl, rfl⟩

theorem witness_StepFollowsTheOrderOfChecks :
    (fed State.reset 0x50000100).input = .word 0x50000100 :: [] ∧ illegalWord .default 0x50000100 ∧
    ¬ illegalWord .default 0x500000FF := 
  ⟨rfl, by unfold illegalWord; decide, by unfold illegalWord; decide⟩

theorem witness_CommandsFollowTheLegalityTable :
    (Instr.wrcsr 2 0x0001FF).WellFormed .default ∧ (fed State.reset 0).input = .word 0 :: [] ∧ illegalWord .default 0 ∧
    (fed State.reset 0).state ≠ .error ∧ (fed (b64w .error 0 0 0) 0).state = .error :=
  ⟨by decide, rfl, by unfold illegalWord; decide, by decide, by decide⟩

/-! #### Errors, reset and the invariant -/

theorem witness_AnErrorChangesOnlyStateAndCode_raise :
    State.reset.state ≠ .error ∧ (b64w .error 0 0 0).state = .error := by decide

theorem witness_AnErrorChangesOnlyStateAndCode :
    (∃ t, step (fed (b64w .active 0x660000 1 4) 0x70000000) = .next t ∧ decide (t.state = .error) = true) ∧
    (b64w .active 0x660000 1 4).state ≠ .error ∧
    (∃ t, exec .start (b64w .done 0 0 0) = .next t ∧ decide (t.state = .active) = true) :=
  ⟨next_of _ (by decide), by decide, next_of _ (by decide)⟩

theorem witness_CommandsRaiseOnlyTheirCodes :
    ∃ t, step (fed State.reset 0x80000000) = .next t ∧ decide (t.state = .error) = true := next_of _ (by decide)

theorem witness_ErrorStateKeepsTheFirstCode :
    (b64w .error 0 0 0).state = .error ∧ ¬ (Instr.rdcsr 7).WellFormed .default ∧
    (fed (b64w .error 0 0 0) 0x27000000).input = .word 0x27000000 :: [] ∧ illegalWord .default 0x27000000 ∧
    (Instr.wrcsr 0 4).WellFormed .default ∧ (Instr.rdcsr 6).WellFormed .default ∧ (Instr.wralpha 63 0).WellFormed .default :=
  ⟨by decide, by decide, rfl, by unfold illegalWord; decide, by decide, by decide, by decide⟩

/-- START replaces the code, the last clause's premise (95_test_vectors.md V-C17). -/
theorem witness_ErrorStateKeepsTheFirstCode_start :
    ∃ t, exec .start { b64w .error 0 0 0 with errCode := .ioErrorSource, alen := 63 } = .next t ∧
      decide (t.errCode ≠ .ioErrorSource) = true := next_of _ (by decide)

theorem witness_OnlyAValidStartOrResetLeavesError :
    (∃ t, step (fed (b64w .error 0 0 0) 0x40000000) = .next t ∧ decide (t.state ≠ .error) = true) ∧
    (∃ t, step { b64w .error 0 0 0 with input := [.rst] } = .next t ∧ decide (t.state ≠ .error) = true) :=
  ⟨next_of _ (by decide), next_of _ (by decide)⟩

theorem witness_StateChangesOnlyByFourTransitions :
    (∃ t, step (fed (b64w .idle 0 0 0) 0x40000000) = .next t ∧ decide (t.state ≠ .idle) = true) ∧
    (∃ t, step (fed (b64w .active 0 0 0) 0x60000000) = .next t ∧ decide (t.state ≠ .active) = true) ∧
    (∃ t, step (fed (b64w .active 0 0 0) 0x11000000) = .next t ∧ decide (t.state ≠ .active) = true) ∧
    (∃ t, step { b64w .active 0 0 0 with input := [.rst] } = .next t ∧ decide (t.state ≠ .active) = true) :=
  ⟨next_of _ (by decide), next_of _ (by decide), next_of _ (by decide), next_of _ (by decide)⟩

theorem witness_NothingIsEmittedAfterAnIOError :
    (∀ x ∈ [Instr.push 0x66, .endStream], x ≠ .start) ∧
    ∃ t, execAll [.rderr, .push 0x66, .endStream] (b64w .active 0x666F00 2 0) = .next t ∧
      decide (t.out = []) = true := ⟨by decide, next_of _ (by decide)⟩

theorem witness_LevelOutputsFollowState :
    (∃ t, exec .start (b64w .error 0 0 0) = .next t ∧ decide (t.state = .active) = true) ∧
    ∃ t, step { b64w .done 0 0 0 with input := [.rst] } = .next t ∧ decide (t.doneO = false) = true :=
  ⟨next_of _ (by decide), next_of _ (by decide)⟩

theorem witness_ResetSetsEveryPieceOfState :
    ({ b64w .active 0x660000 1 4 with input := [.rst] } : State).input = .rst :: [] ∧
    (∃ t, step (fed State.reset 0x20000000) = .next t ∧ decide (t.state = .idle) = true) ∧
    ∃ t, step { b64w .error 0 0 0 with input := [.rst] } = .next t ∧ decide (t.state = .idle) = true :=
  ⟨rfl, next_of _ (by decide), next_of _ (by decide)⟩

theorem witness_EveryStepKeepsTheInvariant :
    Inv (fed (b64w .active 0x660000 1 4) 0x5000006F) ∧
    ∃ t, step (fed (b64w .active 0x660000 1 4) 0x5000006F) = .next t ∧ decide (t.byteCnt = 2) = true :=
  ⟨inv_fed inv_active_one _, next_of _ (by decide)⟩

theorem witness_InvariantsHoldBetweenCommandSteps :
    ∃ t, Sys2Proof.core.run 1 { State.resetOf build32 with input := [Input.word 0x10000001] } = .next t ∧
      decide (t.mode = 1) = true := next_of _ (by decide)

/-- A supported width, and a subset of 1 to 8. -/
theorem witness_ParametersFollowFromTheSupportedWidths :
    5 ∈ build32.supportedK ∧ build32.supportedK ≠ [] ∧ (∀ k ∈ [1, 2, 8], 1 ≤ k ∧ k ≤ 8) ∧
    ({ build32 with widths := [0, 9] } : Params).supportedK = [] := by decide

theorem witness_NoStepChangesTheParameters :
    (∃ t, step (fed (b32w4 .idle 0 0) 0x40000000) = .next t ∧ decide (t.state = .active) = true) ∧
    ∃ t, step { b32w4 .active 0 0 with input := [.rst] } = .next t ∧ decide (t.params.nlChar = 0x0D) = true :=
  ⟨next_of _ (by decide), next_of _ (by decide)⟩

/-! #### The configuration commands -/

theorem witness_WrcsrWritesTheRegisterItNames :
    (Instr.wrcsr 0 0xFF010F).WellFormed .default ∧ (Instr.wrcsr 1 0x01FFFF).WellFormed .default ∧
    (Instr.wrcsr 2 0x0001FF).WellFormed .default ∧ (b64w .active 0 0 0).state = .active ∧ State.reset.state ≠ .active := by
  decide

/-- CSR 3 and 15, the bounds of the read-only and reserved numbers, and a reserved bit of each register. -/
theorem witness_WrcsrWritesTheRegisterItNames_errors :
    3 ≤ (3 : BitVec 4).toNat ∧ 3 ≤ (15 : BitVec 4).toNat ∧ (0x000010#24) &&& 0x00FEF0 ≠ 0 ∧
    (0x000080#24) &&& 0x00FEF0 ≠ 0 ∧ (0x000200#24) &&& 0x00FEF0 ≠ 0 ∧ (0x008000#24) &&& 0x00FEF0 ≠ 0 ∧
    (0x020000#24) &&& 0xFE0000 ≠ 0 ∧ (0x000200#24) &&& 0xFFFE00 ≠ 0 ∧ (Instr.wrcsr 1 0).WellFormed .default ∧
    (b64w .active 0 0 0).state = .active := by decide

theorem witness_RdcsrAppendsTheRegistersValue :
    (0 : BitVec 4).toNat < 7 ∧ (6 : BitVec 4).toNat < 7 ∧ Inv (b64w .active 0x666F00 2 75) :=
  ⟨by decide, by decide, inv_active_two⟩

theorem witness_RdcsrAppendsTheRegistersValue_reserved :
    7 ≤ (7 : BitVec 4).toNat ∧ 7 ≤ (15 : BitVec 4).toNat ∧ opc 0x20000001 = 2 ∧ field 0x20000001 0 24 ≠ 0 ∧
    opc 0x26800000 = 2 ∧ field 0x26800000 0 24 ≠ 0 ∧
    ∃ t, exec (.rdcsr 6) State.reset = .next t ∧ decide (t.resp = [0]) = true :=
  ⟨by decide, by decide, by decide, by decide, by decide, by decide, next_of _ (by decide)⟩

theorem witness_ReadingARegisterIsIdempotent : (6 : BitVec 4).toNat < 7 := by decide

theorem witness_WralphaWritesItsEntryAlone :
    (0 : Byte).toNat < 64 ∧ (63 : Byte).toNat < 64 ∧ (b64w .active 0 0 0).state = .active ∧
    (b64w .error 0 0 0).state ≠ .active ∧ (b64w .error 0 0 0).alphabet.length = (b64w .error 0 0 0).params.alphaMax ∧
    (255 : Byte).toNat < (b32w4 .idle 0 0).params.alphaMax := by decide

theorem witness_WralphaWritesItsEntryAlone_errors :
    64 ≤ (64 : Byte).toNat ∧ 64 ≤ (255 : Byte).toNat ∧ (63 : Byte).toNat < 64 ∧ (b64w .active 0 0 0).state = .active ∧
    opc 0x30010000 = 3 ∧ field 0x30010000 16 12 ≠ 0 := by decide

theorem witness_StartChecksTheConfiguration_states :
    (b64w .active 0 0 0).state = .active ∧ (b64w .error 0 0 0).state ≠ .active := by decide

theorem witness_StartChecksTheConfiguration_invalid :
    State.reset.state ≠ .active ∧ State.reset.configValid = false := by decide

theorem witness_StartChecksTheConfiguration_valid :
    (b64w .idle 0 0 0).state ≠ .active ∧ (b64w .idle 0 0 0).configValid = true := by decide

theorem witness_ConfigurationIsFixedInASession :
    (fed (b64w .active 0 0 0) 0x11000000).input = .word 0x11000000 :: [] ∧
    (fed (b64w .active 0 0 0) 0x11000000).state = .active ∧ (Instr.wrcsr 1 0).WellFormed .default ∧
    (Instr.wralpha 63 0).WellFormed .default ∧
    ∃ t, step (fed (b64w .active 0 0 0) 0x11000000) = .next t ∧ decide (t.wrap = 0x01004C) = true :=
  ⟨rfl, rfl, by decide, by decide, next_of _ (by decide)⟩

theorem witness_ConfigurationSurvivesAllButItsOwnCommands :
    (∀ csr value, decode 0x40000000 ≠ .ok (.wrcsr csr value)) ∧
    (∀ index sym, decode 0x40000000 ≠ .ok (.wralpha index sym)) ∧
    (∃ t, step (fed (b64w .done 0 0 0) 0x40000000) = .next t ∧ decide (t.mode = 0x3D0106) = true) ∧
    (∃ t, exec .start (b64w .done 0 0 0) = .next t ∧ decide (t.state = .active) = true) ∧
    (b64w .done 0 0 0).state ≠ .active := by
  have hd : decode 0x40000000 = .ok .start := by decide
  refine ⟨fun _ _ => ?_, fun _ _ => ?_, next_of _ (by decide), next_of _ (by decide), by decide⟩ <;>
    rw [hd] <;> simp

/-- k = 1 and k = 6, the bounds, with and without wrap. -/
theorem witness_BootSequenceStartsASession :
    State.reset.state ≠ .active ∧ 1 ∈ State.reset.params.supportedK ∧ ([48, 49] : List Byte).length = 2 ^ 1 ∧
    (∀ w ∈ some (1 : BitVec 16), w ≠ 0 ∧ w.toNat < 2 ^ (State.reset.params.wrapBits : Nat)) ∧
    lineCommands (.setMode 1 (some (61 : Byte).toNat)) = some [.wrcsr 0 0x3D0101] ∧
    lineCommands (.setWrap ((some (1 : BitVec 16)).map BitVec.toNat)) = some [.wrcsr 1 0x010001] ∧
    lineCommands (.loadAlpha (([48, 49] : List Byte).map BitVec.toNat)) =
      some [.wralpha 0 48, .wralpha 1 49, .wrcsr 2 2] ∧
    6 ∈ State.reset.params.supportedK ∧ (base64).length = 2 ^ 6 ∧
    lineCommands (.setWrap ((none : Option (BitVec 16)).map BitVec.toNat)) = some [.wrcsr 1 0] ∧
    (b64w .idle 0 0 0).alphabet.length = (b64w .idle 0 0 0).params.alphaMax :=
  ⟨by decide, by decide, by decide, fun w h => by cases h; decide, by decide, by decide, by decide, by decide,
    by decide, by decide, by decide⟩

/-! #### The datapath -/

/-- Widths 1 and 8, the bounds, 2, which no session accepts, and 0, 9 and 15, which have no geometry. -/
theorem witness_GeomReadsTheGeometryOfTheBitWidth :
    ({ State.reset with mode := 1 } : State).mode.toNat % 16 = 1 ∧
    ({ State.reset with mode := 0x3D0108 } : State).mode.toNat % 16 = 8 ∧
    ({ State.reset with mode := 2 } : State).mode.toNat % 16 = 2 ∧ State.reset.mode.toNat % 16 = 0 ∧
    9 ≤ ({ State.reset with mode := 9 } : State).mode.toNat % 16 ∧
    9 ≤ ({ State.reset with mode := 0xFF010F } : State).mode.toNat % 16 := by decide

theorem witness_AccInsertSetsItsByteAlone :
    (b64w .active 0 0 0).byteCnt.toNat < (b64w .active 0 0 0).chunk ∧
    (b64w .active 0 2 0).byteCnt.toNat < (b64w .active 0 2 0).chunk := by
  decide

theorem witness_PackedWordIsBigEndian :
    (b64w .active 0 0 0).acc = 0 ∧ (b64w .active 0 0 0).byteCnt = 0 ∧
    ([0x66, 0x6F, 0x6F] : List Byte).length ≤ (b64w .active 0 0 0).chunk ∧
    ([] : List Byte).length ≤ (b64w .active 0 0 0).chunk := by decide

theorem witness_ExtractedIndexHasItsClosedForm : 1 ≤ 3 ∧ 3 * 8 = 8 * 3 ∧ 0 < 8 ∧ 7 < 8 := by decide

theorem witness_RealPositionsAreTheFirstOnes :
    1 ≤ 1 ∧ 1 ≤ 8 ∧ 8 ≤ 8 ∧ 3 ≤ chunkBytes 6 ∧ 3 < symsPerChunk 6 ∧ chunkBytes 4 = 1 ∧ 1 < symsPerChunk 4 := by
  decide

/-- No wrap, inside a line, and the last symbol of a line. -/
theorem witness_LineWrapCounterCountsTheColumn :
    (b8 .active 0 0).wrapEn = false ∧ (b64w .active 0 0 74).wrapEn = true ∧
    (b64w .active 0 0 74).col.toNat + 1 < (b64w .active 0 0 74).wrapWidth.toNat ∧
    (b64w .active 0 0 75).col.toNat + 1 = (b64w .active 0 0 75).wrapWidth.toNat := by decide

theorem witness_EmitChunkHasItsClosedForm :
    1 ≤ (b64w .active 0 0 75).bitWidth ∧ (b64w .active 0 0 75).bitWidth ≤ 8 ∧ columnFits (b64w .active 0 0 75) := by
  refine ⟨by decide, by decide, fun _ => by decide⟩

theorem witness_NewlinesOfAChunkAreCounted : 0 < 1 ∧ 75 < 76 := by decide

/-! #### The stream commands and the channels -/

theorem witness_PushStoresItsByteOrEmitsTheChunk_inside :
    Inv (b64w .active 0x660000 1 4) ∧ (b64w .active 0x660000 1 4).state = .active ∧
    (b64w .active 0x660000 1 4).byteCnt.toNat + 1 < (b64w .active 0x660000 1 4).chunk :=
  ⟨inv_active_one, rfl, by decide⟩

theorem witness_PushStoresItsByteOrEmitsTheChunk_filling :
    Inv (b64w .active 0x666F00 2 75) ∧ (b64w .active 0x666F00 2 75).state = .active ∧
    (b64w .active 0x666F00 2 75).byteCnt.toNat + 1 = (b64w .active 0x666F00 2 75).chunk ∧
    Inv (b16w3 .active 0) ∧ (b16w3 .active 0).byteCnt.toNat + 1 = (b16w3 .active 0).chunk :=
  ⟨inv_active_two, rfl, by decide, inv_b16, by decide⟩

theorem witness_PushStoresItsByteOrEmitsTheChunk_outside :
    State.reset.state = .idle ∧ (b64w .done 0 0 0).state = .done ∧ (b64w .error 0 0 0).state = .error ∧
    (b64w .active 0 0 0).state = .active ∧ opc 0x50000100 = 5 ∧ field 0x50000100 8 20 ≠ 0 := by decide

/-- On a chunk boundary, and with a byte of a chunk read. -/
theorem witness_EndFlushesTheChunkAndEndsTheSession :
    Inv (b64w .active 0 0 0) ∧ (b64w .active 0 0 0).state = .active ∧ Inv (b64w .active 0x660000 1 4) ∧
    0 < (b64w .active 0x660000 1 4).byteCnt.toNat := ⟨inv_b64, rfl, inv_active_one, by decide⟩

theorem witness_EndFlushesTheChunkAndEndsTheSession_outside :
    State.reset.state = .idle ∧ (b64w .error 0 0 0).state = .error ∧ (b64w .active 0 0 0).state = .active ∧
    ∃ t, execAll [.endStream, .endStream] (b64w .active 0 0 0) = .next t ∧ decide (t.state = .error) = true :=
  ⟨rfl, rfl, rfl, next_of _ (by decide)⟩

theorem witness_RderrRaisesIoErrorSource : State.reset.state ≠ .error ∧ (b64w .error 0 0 0).state = .error := by decide

theorem witness_WrerrRaisesIoErrorSink :
    (b64w .done 0 0 0).state ≠ .error ∧ (b64w .error 0 0 0).state = .error ∧
    ∃ t, exec .wrerr (b64w .done 0 0 0) = .next t ∧ decide (t.errCode = .ioErrorSink) = true :=
  ⟨by decide, by decide, next_of _ (by decide)⟩

theorem witness_OutOnlyGrowsByEmittedCharacters :
    Inv (fed (b16w3 .active 0) 0x50000066) ∧
    ∃ t, step (fed (b16w3 .active 0) 0x50000066) = .next t ∧ decide (t.out = [0x36, 0x36]) = true :=
  ⟨inv_fed inv_b16 _, next_of _ (by decide)⟩

theorem witness_RespGrowsByOneWordPerRdcsr :
    (∃ t, step (fed State.reset 0x26000000) = .next t ∧ decide (t.resp = [0]) = true) ∧
    (6 : BitVec 4).toNat < 7 ∧ decode 0x26000000 = .ok (.rdcsr 6) ∧
    (∀ csr : BitVec 4, csr.toNat < 7 → decode 0x27000000 ≠ .ok (.rdcsr csr)) :=
  ⟨next_of _ (by decide), by decide, by decide, by decide⟩

theorem witness_OutputIsCommittedByWholeChunks :
    Inv (fed (b64w .active 0x666F00 2 75) 0x5000006F) ∧
    (∃ t, step (fed (b64w .active 0x666F00 2 75) 0x5000006F) = .next t ∧ decide (t.out ≠ []) = true) ∧
    Inv (fed (b64w .active 0x660000 1 4) 0x60000000) ∧
    ∃ t, step (fed (b64w .active 0x660000 1 4) 0x60000000) = .next t ∧ decide (t.out ≠ []) = true :=
  ⟨inv_fed inv_active_two _, next_of _ (by decide),
    inv_fed inv_active_one _, next_of _ (by decide)⟩

theorem witness_DeliveredOutputStaysAPrefix :
    Delivered 1 { b16w3 .active 2 with out := [0x36, 0x36] } [0x36] ∧
    ∃ t, execAll [.push 0x6F, .wrerr] { b16w3 .active 2 with out := [0x36, 0x36] } = .next t ∧
      decide (t.out.length = 5) = true :=
  ⟨⟨⟨[0x36], rfl⟩, by decide⟩, next_of _ (by decide)⟩

/-! #### Frames, sessions and the assembler -/

theorem witness_ConfigurationCommandsChangeOnlyTheirTarget :
    (∃ t, exec (.wrcsr 1 0x010003) State.reset = .next t ∧ decide (t.wrap = 0x010003) = true) ∧
    (∃ t, exec (.wrcsr 3 0) (b64w .error 0 0 0) = .next t ∧ decide (t.errCode = .configError) = true) ∧
    (∃ t, exec (.rdcsr 7) State.reset = .next t ∧ decide (t.errCode = .illegalCommand) = true) ∧
    (∃ t, exec (.wralpha 63 0x2F) (b16w3 .idle 0) = .next t ∧ decide (t.symbol 63 = 0x2F) = true) :=
  ⟨next_of _ (by decide), next_of _ (by decide), next_of _ (by decide), next_of _ (by decide)⟩

theorem witness_SessionAndReportCommandsChangeOnlyTheirRegisters :
    (∃ t, exec .start State.reset = .next t ∧ decide (t.state = .error) = true) ∧
    (∃ t, exec .rderr State.reset = .next t ∧ decide (t.errCode = .ioErrorSource) = true) ∧
    (∃ t, exec .wrerr State.reset = .next t ∧ decide (t.errCode = .ioErrorSink) = true) :=
  ⟨next_of _ (by decide), next_of _ (by decide), next_of _ (by decide)⟩

theorem witness_StreamCommandsChangeOnlyTheDatapathAndOut :
    (∃ t, exec (.push 0x66) (b64w .active 0 0 0) = .next t ∧ decide (t.byteCnt = 1) = true) ∧
    (∃ t, exec .endStream (b64w .active 0 0 4) = .next t ∧ decide (t.out = [0x0A]) = true) ∧
    (b64w .active 0 0 4).state = .active ∧ (b64w .done 0 0 0).state ≠ .active :=
  ⟨next_of _ (by decide), next_of _ (by decide), rfl, by decide⟩

theorem witness_SessionEmitsItsBytesAsOneBitString :
    (b64w .done 0 0 0).state ≠ .active ∧ (b64w .done 0 0 0).configValid = true := by decide

theorem witness_SessionTextHasItsCounts :
    (b64w .idle 0 0 0).configValid = true ∧ (b64w .idle 0 0 0).wrapEn = true ∧ 0 < ([0x66] : List Byte).length ∧
    ([] : List Byte).length = 0 := by decide

theorem witness_WrappedOutputIsLinesOfAtMostTheWidth : 0 < 1 := by decide

theorem witness_ChunkReadsExpandToPushesAndEnd : 0 < 1 ∧ 0 < 3 := by decide

end Sys2Proof.Tests
end

/-! SUPPORT. What one word can do to the state, once: the admissions that let a command execute, what each command's
effect leaves alone, and the outcome of a step on a word. -/

namespace Sys2Proof.Machine

open Sys2Proof.Claims

/-! ### The admissions -/

/-- A command that executes passed the operand checks (60_exceptions.md R197). -/
theorem wellFormed_of_executes {p : Params} {i : Instr} {st : SessionState} (h : admission p i st = .executes) :
    i.WellFormed p := by
  by_contra wf
  rw [admission_of_fault wf] at h
  cases h

/-- In ACTIVE no WRCSR, WRALPHA or START executes (60_exceptions.md R196). -/
theorem not_barred_of_executes {p : Params} {i : Instr} (h : admission p i .active = .executes) :
    barredInActive i = false := by
  rw [admission_of_wellFormed (wellFormed_of_executes h)] at h
  by_contra hb
  simp [hb] at h

/-- PUSH and END execute in ACTIVE alone (60_exceptions.md R196). -/
theorem active_of_executes {p : Params} {i : Instr} {st : SessionState} (h : admission p i st = .executes)
    (hn : needsSession i = true) : st = .active := by
  have hig : ignoredInError i = true := by cases i <;> simp_all [needsSession, ignoredInError]
  rw [admission_of_wellFormed (wellFormed_of_executes h)] at h
  cases st with
  | active => rfl
  | idle | done | error => simp [hn, hig] at h

/-- `raise` outside ERROR, written as the two registers it sets (60_exceptions.md R193). -/
theorem State.raise_eq_raised {s : State} (h : s.state ≠ .error) (e : ErrCode) : s.raise e = raised s e :=
  State.raise_of_ne h e

/-- WRCSR, WRALPHA and START in ACTIVE raise SEQUENCE_ERROR (60_exceptions.md R196). -/
theorem exec_of_barred {i : Instr} {s : State} (wf : i.WellFormed s.params) (ha : s.state = .active)
    (hb : barredInActive i = true) : exec i s = .next (raised s .sequenceError) := by
  have had : admission s.params i s.state = .outOfSequence := by
    simp [admission_of_wellFormed wf, ha, hb]
  rw [exec_eq_perform, perform, had, ← State.raise_eq_raised (by simp [ha])]

theorem exec_of_executes {i : Instr} {s : State} (h : admission s.params i s.state = .executes) :
    exec i s = .next (effectOf i s) := by
  rw [exec_eq_perform, perform, h]

/-- START outside ACTIVE executes (40_config.md R115). -/
theorem exec_start {s : State} (h : s.state ≠ .active) : exec .start s = .next (startEffect s) := by
  have wf : Instr.start.WellFormed s.params := rfl
  exact exec_of_executes (by simp [admission_of_wellFormed wf, h, ignoredInError, needsSession])

/-- RDCSR of an implemented register executes in every state (40_config.md R106, 60_exceptions.md R196). -/
theorem exec_rdcsr {csr : BitVec 4} (h : csr.toNat < 7) (s : State) :
    exec (.rdcsr csr) s = .next (rdcsrEffect csr s) := by
  have wf : (Instr.rdcsr csr).WellFormed s.params := (Laws.rdcsr_wellFormed_iff s.params csr).2 h
  exact exec_of_executes (by simp [admission_of_wellFormed wf, ignoredInError, barredInActive, needsSession])

/-! ### The effects -/

/-- WRCSR's effect is a write of the register it names, if there is one (40_config.md R102). -/
theorem wrcsrEffect_eq (csr : BitVec 4) (value : BitVec 24) (s : State) :
    wrcsrEffect csr value s = s ∨ ∃ c, wrcsrEffect csr value s = s.writeCsr c value := by
  unfold wrcsrEffect
  split
  next c _ => exact .inr ⟨c, rfl⟩
  next => exact .inl rfl

/-- RDCSR's effect on an implemented register is one response (40_config.md R106). -/
theorem rdcsrEffect_of_lt {csr : BitVec 4} (h : csr.toNat < 7) (s : State) :
    ∃ v, rdcsrEffect csr s = s.respond v := by
  unfold rdcsrEffect
  split
  next c _ => exact ⟨_, rfl⟩
  next hnone => exact absurd ((Laws.ofNumber_eq_none_iff csr).1 hnone) (by omega)

theorem startEffect_of_valid {s : State} (h : s.configValid = true) : startEffect s = s.beginSession := by
  simp [startEffect, h]

theorem startEffect_of_invalid {s : State} (h : s.configValid = false) : startEffect s = raised s .configError := by
  simp only [startEffect, h, Bool.false_eq_true, if_false]
  rfl

/-- What a command's effect leaves alone, and what it may do to STATE. -/
structure EffectFrame (i : Instr) (s t : State) : Prop where
  /-- Only WRCSR writes MODE, WRAP and ALEN (10_state.md R51). -/
  registers : (∀ csr value, i ≠ .wrcsr csr value) → t.mode = s.mode ∧ t.wrap = s.wrap ∧ t.alen = s.alen
  /-- Only WRALPHA writes the alphabet (10_state.md R51). -/
  alphabet : (∀ index sym, i ≠ .wralpha index sym) → t.alphabet = s.alphabet
  /-- Only RDCSR appends to RESP (10_state.md R47). -/
  resp : (∀ csr, i ≠ .rdcsr csr) → t.resp = s.resp
  /-- Only PUSH and END append to OUT (10_state.md R46). -/
  out : needsSession i = false → t.out = s.out
  /-- No command sets IDLE (10_state.md R50). -/
  idle : t.state = .idle → s.state = .idle

theorem effectOf_frame {i : Instr} (s : State) (wf : i.WellFormed s.params) : EffectFrame i s (effectOf i s) := by
  cases i with
  | wrcsr csr value =>
    show EffectFrame _ s (wrcsrEffect csr value s)
    rcases wrcsrEffect_eq csr value s with h | ⟨c, h⟩ <;> rw [h] <;> constructor <;> simp
  | rdcsr csr =>
    obtain ⟨v, h⟩ := rdcsrEffect_of_lt ((Laws.rdcsr_wellFormed_iff s.params csr).1 wf) s
    show EffectFrame _ s (rdcsrEffect csr s)
    rw [h]
    constructor <;> simp
  | wralpha index sym =>
    show EffectFrame _ s (s.setAlphabet index.toNat sym)
    constructor <;> simp
  | start =>
    show EffectFrame _ s (startEffect s)
    cases hv : s.configValid
    · rw [startEffect_of_invalid hv]
      constructor <;> simp [raised]
    · rw [startEffect_of_valid hv]
      constructor <;> simp
  | push b =>
    obtain ⟨o, c, a, n, -, h⟩ := pushEffect_shape b s
    show EffectFrame _ s (pushEffect b s)
    rw [h]
    constructor <;> simp [needsSession]
  | endStream =>
    obtain ⟨o, c, a, n, -, h⟩ := endEffect_shape s
    show EffectFrame _ s (endEffect s)
    rw [h]
    constructor <;> simp [needsSession]
  | rderr =>
    show EffectFrame _ s (s.raise .ioErrorSource)
    constructor <;> simp
  | wrerr =>
    show EffectFrame _ s (s.raise .ioErrorSink)
    constructor <;> simp

/-- PUSH and END are the commands that need a session, and each only appends emittable characters to OUT
(10_state.md R46). -/
theorem effectOf_emits {i : Instr} (hn : needsSession i = true) (s : State) :
    (i = .endStream ∨ ∃ b, i = .push b) ∧
    ∃ o, (effectOf i s).out = s.out ++ o ∧ ∀ ch ∈ o, s.Emittable ch := by
  cases i with
  | push b =>
    obtain ⟨o, c, a, n, ho, h⟩ := pushEffect_shape b s
    exact ⟨.inr ⟨b, rfl⟩, o, by rw [effectOf, h], ho⟩
  | endStream =>
    obtain ⟨o, c, a, n, ho, h⟩ := endEffect_shape s
    exact ⟨.inl rfl, o, by rw [effectOf, h], ho⟩
  | wrcsr | rdcsr | wralpha | start | rderr | wrerr => simp [needsSession] at hn

/-! ### The step on a word -/

theorem step_word_ok {s : State} {w : Word} {rest : List Input} {i : Instr} (hin : s.input = .word w :: rest)
    (hd : decode w = .ok i) : step s = exec i (s.setInput rest) := by
  rw [step_word hin, runWord_ok hd]

/-- What a step on a word can do: raise an error, change nothing, or run the effect of a command that executes
(60_exceptions.md R197). -/
theorem step_word_cases {s t : State} {w : Word} {rest : List Input} (hin : s.input = .word w :: rest)
    (h : step s = .next t) :
    (∃ e, t = (s.setInput rest).raise e) ∨ t = s.setInput rest ∨
    ∃ i, decode w = .ok i ∧ i.WellFormed s.params ∧ admission s.params i s.state = .executes ∧
      t = effectOf i (s.setInput rest) := by
  rcases hd : decode w with r | i
  · rw [step_word hin, runWord_error hd] at h
    cases h
    exact .inl ⟨_, rfl⟩
  · rw [step_word_ok hin hd] at h
    rcases exec_inv h with ⟨-, ht⟩ | ht | ⟨-, ht⟩ | ⟨wf, ha, ht⟩
    · exact .inl ⟨_, ht⟩
    · exact .inr (.inl ht)
    · exact .inl ⟨_, ht⟩
    · exact .inr (.inr ⟨i, rfl, wf, ha, ht⟩)

/-! ### Reset -/

/-- The configuration right after reset has no supported width (10_state.md R50). -/
theorem State.configValid_assertReset (s : State) : s.assertReset.configValid = false := by
  refine Bool.eq_false_iff.2 fun hv => ?_
  have hk : s.assertReset.bitWidth = 0 := rfl
  have hpos : 1 ≤ s.assertReset.bitWidth := (State.configValid_arith hv).1
  omega

end Sys2Proof.Machine

/-! The statements of 10_state.md: reset, the configuration's lifetime, and the two output channels. -/

namespace Sys2Proof.Proofs

open Sys2Proof.Machine Sys2Proof.Safety Sys2Proof.Claims

/-- Settles O18: reset is one step with every field given, and no error and no command's effect ends in IDLE. -/
theorem resetSetsEveryPieceOfState : Obligations.ResetSetsEveryPieceOfState := by
  refine ⟨fun s rest hin => ⟨_, step_rst hin, ?_⟩, fun s t h hidle => ?_⟩
  · have hstart : exec .start (s.setInput rest).assertReset =
        .next (raised (s.setInput rest).assertReset .configError) := by
      rw [exec_start (by simp), startEffect_of_invalid (State.configValid_assertReset _)]
    simp [State.errO, State.doneO, hstart]
  · rcases hin : s.input with _ | ⟨w | _, rest⟩
    · rw [step_nil hin] at h
      cases h
      exact .inl hidle
    · rcases step_word_cases hin h with ⟨e, rfl⟩ | rfl | ⟨i, -, wf, -, rfl⟩
      · simp at hidle
      · exact .inl hidle
      · exact .inl ((effectOf_frame (s.setInput rest) wf).idle hidle)
    · exact .inr ⟨rest, rfl⟩

/-- Settles O28: what executes in ACTIVE is neither WRCSR nor WRALPHA, and these raise SEQUENCE_ERROR there. -/
theorem configurationIsFixedInASession : Obligations.ConfigurationIsFixedInASession := by
  refine ⟨fun s t w rest hin hact h => ?_, fun s i hact wf hi => ?_⟩
  · rcases step_word_cases hin h with ⟨e, rfl⟩ | rfl | ⟨i, -, wf, ha, rfl⟩
    · simp
    · simp
    · have hb : barredInActive i = false := not_barred_of_executes (hact ▸ ha)
      have frame := effectOf_frame (s.setInput rest) wf
      obtain ⟨hmode, hwrap, halen⟩ := frame.registers (by rintro _ _ rfl; cases hb)
      exact ⟨hmode, hwrap, halen, frame.alphabet (by rintro _ _ rfl; cases hb)⟩
  · have hb : barredInActive i = true := by rcases hi with ⟨_, _, rfl⟩ | ⟨_, _, rfl⟩ <;> rfl
    exact exec_of_barred wf hact hb

/-- Settles O29: by the frame of each command's effect, and START's check. -/
theorem configurationSurvivesAllButItsOwnCommands : Obligations.ConfigurationSurvivesAllButItsOwnCommands := by
  refine ⟨fun s t w rest hin h => ?_, fun s t h hact hne => ?_⟩
  · rcases step_word_cases hin h with ⟨e, rfl⟩ | rfl | ⟨i, hd, wf, -, rfl⟩
    · simp
    · simp
    · have frame := effectOf_frame (s.setInput rest) wf
      exact ⟨fun hw => frame.registers fun _ _ hi => hw _ _ (hi ▸ hd),
        fun hw => frame.alphabet fun _ _ hi => hw _ _ (hi ▸ hd)⟩
  · rw [exec_start hne] at h
    cases h
    cases hv : s.configValid
    · rw [startEffect_of_invalid hv] at hact
      cases hact
    · simp [startEffect_of_valid hv]

/-- Settles O43: PUSH and END execute in ACTIVE alone, where the invariant makes every emitted symbol an entry of the
alphabet. -/
theorem outOnlyGrowsByEmittedCharacters : Obligations.OutOnlyGrowsByEmittedCharacters := by
  refine ⟨rfl, fun s t w rest hin h => ?_⟩
  rcases step_word_cases hin h with ⟨e, rfl⟩ | rfl | ⟨i, hd, wf, ha, rfl⟩
  · exact ⟨[], by simp, by simp, by simp⟩
  · exact ⟨[], by simp, by simp, by simp⟩
  · cases hn : needsSession i
    · exact ⟨[], by simpa using (effectOf_frame (s.setInput rest) wf).out hn, by simp, by simp⟩
    · have hact : s.state = .active := active_of_executes ha hn
      obtain ⟨hi, gained, hout, hem⟩ := effectOf_emits hn (s.setInput rest)
      refine ⟨gained, hout, fun inv ch hch => ?_, fun _ => ⟨hact, ?_⟩⟩
      · exact (hem ch hch).entry (inv.config hact) inv.alphabetSize
      · rcases hi with rfl | ⟨b, rfl⟩
        · exact .inl hd
        · exact .inr ⟨b, hd⟩

/-- Settles O44: RDCSR of an implemented register executes in every state, and no other effect touches RESP. -/
theorem respGrowsByOneWordPerRdcsr : Obligations.RespGrowsByOneWordPerRdcsr := by
  refine ⟨rfl, fun s t w rest hin h => ⟨fun csr hlt hd => ?_, fun hno => ?_⟩⟩
  · rw [step_word_ok hin hd, exec_rdcsr hlt] at h
    cases h
    obtain ⟨v, hv⟩ := rdcsrEffect_of_lt hlt (s.setInput rest)
    exact ⟨v, by simp [hv]⟩
  · rcases step_word_cases hin h with ⟨e, rfl⟩ | rfl | ⟨i, hd, wf, -, rfl⟩
    · simp
    · simp
    · refine (effectOf_frame (s.setInput rest) wf).resp ?_
      rintro csr rfl
      exact hno csr ((Laws.rdcsr_wellFormed_iff s.params csr).1 wf) hd

end Sys2Proof.Proofs

/-! SUPPORT. RDCSR as one equation, and the value it reads after another read. -/

namespace Sys2Proof.Machine

/-- The numbers below 7 name a register (10_state.md R27). -/
theorem exists_csr_of_lt {csr : BitVec 4} (h : csr.toNat < 7) : ∃ c, Csr.ofNumber csr = some c :=
  Option.ne_none_iff_exists'.1 fun hnone => h.not_ge ((Laws.ofNumber_eq_none_iff csr).1 hnone)

/-- RDCSR of the register `c` responds with the value of `c`, in every state (40_config.md R106). -/
theorem exec_rdcsr_eq_respond {csr : BitVec 4} {c : Csr} (hc : Csr.ofNumber csr = some c) (s : State) :
    exec (.rdcsr csr) s = .next (s.respond (s.readCsr c)) := by
  have h : csr.toNat < 7 := not_le.1 fun hle => by simp [(Laws.ofNumber_eq_none_iff csr).2 hle] at hc
  rw [exec_rdcsr h, rdcsrEffect, hc]

/-- No register's value depends on RESP (10_state.md R36 to R38). -/
@[simp] theorem State.readCsr_respond (s : State) (v : Word) (c : Csr) : (s.respond v).readCsr c = s.readCsr c := by
  cases c <;> rfl

theorem State.respond_respond (s : State) (v w : Word) :
    (s.respond v).respond w = { s with resp := s.resp ++ [v, w] } := by
  simp [State.respond]

end Sys2Proof.Machine

/-! The statement of 20_memory.md: a register read has no side effect. -/

namespace Sys2Proof.Proofs

open Sys2Proof.Machine Sys2Proof.Safety Sys2Proof.Claims

/-- Settles O24: RDCSR only responds, and a response changes no register's value. -/
theorem readingARegisterIsIdempotent : Obligations.ReadingARegisterIsIdempotent := by
  intro s csr hlt
  obtain ⟨c, hc⟩ := exists_csr_of_lt hlt
  have second : exec (.rdcsr csr) (s.respond (s.readCsr c)) =
      .next { s with resp := s.resp ++ [s.readCsr c, s.readCsr c] } := by
    rw [exec_rdcsr_eq_respond hc, State.readCsr_respond, State.respond_respond]
  exact ⟨s.readCsr c, exec_rdcsr_eq_respond hc s, second⟩

end Sys2Proof.Proofs

/-! SUPPORT. The five items of 30_encoding.md R90, read off a word's bits, against the decoder and the operand checks. -/

namespace Sys2Proof.Laws

open Sys2Proof.Claims

/-! ### A word's fields -/

theorem opc_eq_bits (w : Word) : opc w = (bits w 28 4).toNat := by
  have hlt : w.toNat < 2 ^ 32 := w.isLt
  rw [bits_toNat, opc]
  omega

theorem field_eq_bits (w : Word) (lo len : Nat) : field w lo len = (bits w lo len).toNat :=
  (bits_toNat w lo len).symm

theorem field_eq_zero_iff (w : Word) (lo len : Nat) : field w lo len = 0 ↔ bits w lo len = 0 :=
  (bits_eq_zero_iff w lo len).symm

theorem bits_eq_iff_field (w : Word) (lo : Nat) {len : Nat} (v : BitVec len) :
    bits w lo len = v ↔ field w lo len = v.toNat := by
  rw [field_eq_bits, BitVec.toNat_inj]

/-! ### The reserved bits of WRCSR's value (30_encoding.md R90 item 3) -/

theorem reservedClear_mode_iff (w : Word) :
    reservedClear .mode (bits w 0 24) = true ↔ field w 4 4 = 0 ∧ field w 9 7 = 0 := by
  simp [reservedClear, field_eq_zero_iff]

theorem reservedClear_wrap_iff (w : Word) : reservedClear .wrap (bits w 0 24) = true ↔ field w 17 7 = 0 := by
  simp [reservedClear, field_eq_zero_iff]

theorem reservedClear_alen_iff (w : Word) : reservedClear .alen (bits w 0 24) = true ↔ field w 9 15 = 0 := by
  simp [reservedClear, field_eq_zero_iff]

/-- Items 2 and 3 passed, in the word's own fields. -/
theorem wrcsr_bits_wellFormed_iff (p : Params) (w : Word) :
    (Instr.wrcsr (bits w 24 4) (bits w 0 24)).WellFormed p ↔
      (field w 24 4 = 0 ∧ field w 4 4 = 0 ∧ field w 9 7 = 0) ∨ (field w 24 4 = 1 ∧ field w 17 7 = 0) ∨
      (field w 24 4 = 2 ∧ field w 9 15 = 0) := by
  rw [wrcsr_wellFormed_iff, reservedClear_mode_iff, reservedClear_wrap_iff, reservedClear_alen_iff]
  simp [bits_eq_iff_field]

/-! ### The five items -/

/-- Item 1 covers every word that does not decode. -/
theorem illegalWord_of_decode_error {p : Params} {w : Word} {r : Illegal} (h : decode w = .error r) :
    illegalWord p w := by
  have item1 := decode_error h
  simp only [← opc_eq_bits, ne_eq, ← field_eq_zero_iff] at item1
  unfold illegalWord
  tauto

/-- On a word that decodes, the five items are the operand checks of its command. -/
theorem illegalWord_iff_not_wellFormed {p : Params} {w : Word} {i : Instr} (h : decode w = .ok i) :
    illegalWord p w ↔ ¬ i.WellFormed p := by
  have reads := (decode_eq_ok_iff w i).1 h
  cases i with
  | wrcsr csr value =>
    obtain ⟨hop, rfl, rfl⟩ := reads
    rw [wrcsr_bits_wellFormed_iff]
    simp only [illegalWord, (opc_eq_bits w).trans hop, List.mem_cons, List.not_mem_nil, or_false, true_and]
    omega
  | rdcsr csr =>
    obtain ⟨hop, hzero, rfl⟩ := reads
    rw [rdcsr_wellFormed_iff, ← field_eq_bits]
    simp [illegalWord, (opc_eq_bits w).trans hop, (field_eq_zero_iff w 0 24).2 hzero]
  | wralpha index sym =>
    obtain ⟨hop, hzero, rfl, rfl⟩ := reads
    rw [wralpha_wellFormed_iff, ← field_eq_bits]
    simp [illegalWord, (opc_eq_bits w).trans hop, (field_eq_zero_iff w 16 12).2 hzero]
  | push b =>
    obtain ⟨hop, hzero, rfl⟩ := reads
    simp [illegalWord, (opc_eq_bits w).trans hop, (field_eq_zero_iff w 8 20).2 hzero, Instr.operandFault]
  | start | endStream | rderr | wrerr =>
    obtain ⟨hop, hzero⟩ := reads
    simp [illegalWord, (opc_eq_bits w).trans hop, (field_eq_zero_iff w 0 28).2 hzero, Instr.operandFault]

/-- A word passes the five items exactly when it decodes to a well-formed command (30_encoding.md R89, R90). -/
theorem not_illegalWord_iff {p : Params} {w : Word} :
    ¬ illegalWord p w ↔ ∃ i, decode w = .ok i ∧ i.WellFormed p := by
  rcases hd : decode w with r | i
  · simp [illegalWord_of_decode_error hd]
  · simp [illegalWord_iff_not_wellFormed hd]

end Sys2Proof.Laws

namespace Sys2Proof.Machine

open Sys2Proof.Claims

/-- `raise` in both its cases (60_exceptions.md R193, R198). -/
theorem State.raise_eq_ite (s : State) (e : ErrCode) :
    s.raise e = if s.state = .error then s else raised s e := rfl

/-- A word that fails R90 raises ILLEGAL_COMMAND, whether it is the decoder or the operand checks that refuse it; in
ERROR it is ignored. -/
theorem step_illegalWord {s : State} {w : Word} {rest : List Input} (hin : s.input = .word w :: rest)
    (h : illegalWord s.params w) :
    step s = .next (if s.state = .error then s.setInput rest else raised (s.setInput rest) .illegalCommand) := by
  have hraise : step s = .next ((s.setInput rest).raise .illegalCommand) := by
    rcases hd : decode w with r | i
    · rw [step_word hin, runWord_error hd]
    · have wf : ¬ i.WellFormed (s.setInput rest).params := (Laws.illegalWord_iff_not_wellFormed hd).1 h
      rw [step_word_ok hin hd, exec_eq_perform, perform_of_fault wf]
  rw [hraise, State.raise_eq_ite, State.setInput_state]

/-- What a command's effect does to ERR_CODE: only START, RDERR and WRERR may change it (60_exceptions.md R191). -/
theorem effectOf_errCode {i : Instr} (s : State) (wf : i.WellFormed s.params) :
    (effectOf i s).errCode = s.errCode ∨
    (i = .start ∧ (effectOf i s).errCode ∈ [ErrCode.none, .configError]) ∨
    (i = .rderr ∧ (effectOf i s).errCode = .ioErrorSource) ∨ (i = .wrerr ∧ (effectOf i s).errCode = .ioErrorSink) := by
  cases i with
  | wrcsr csr value =>
    rcases wrcsrEffect_eq csr value s with h | ⟨c, h⟩ <;> simp [effectOf, h]
  | rdcsr csr =>
    obtain ⟨v, h⟩ := rdcsrEffect_of_lt ((Laws.rdcsr_wellFormed_iff s.params csr).1 wf) s
    simp [effectOf, h]
  | wralpha index sym => exact .inl rfl
  | start =>
    cases hv : s.configValid
    · simp [effectOf, startEffect_of_invalid hv, raised]
    · simp [effectOf, startEffect_of_valid hv]
  | push b =>
    obtain ⟨o, c, a, n, -, h⟩ := pushEffect_shape b s
    simp [effectOf, h]
  | endStream =>
    obtain ⟨o, c, a, n, -, h⟩ := endEffect_shape s
    simp [effectOf, h]
  | rderr | wrerr =>
    by_cases he : s.state = .error <;> simp [effectOf, State.raise_errCode, he]

/-- A well-formed command raises no ILLEGAL_COMMAND: a code that was another one stays another one. -/
theorem exec_errCode_ne_illegalCommand {i : Instr} {s t : State} (wf : i.WellFormed s.params)
    (hne : s.errCode ≠ .illegalCommand) (h : exec i s = .next t) : t.errCode ≠ .illegalCommand := by
  rcases exec_inv h with ⟨hf, -⟩ | rfl | ⟨-, rfl⟩ | ⟨-, -, rfl⟩
  · exact absurd wf hf
  · exact hne
  · rw [State.raise_errCode]
    split
    · exact hne
    · decide
  · rcases effectOf_errCode s wf with hc | ⟨-, hc⟩ | ⟨-, hc⟩ | ⟨-, hc⟩
    · rwa [hc]
    · intro hill
      simp [hill] at hc
    · simp [hc]
    · simp [hc]

end Sys2Proof.Machine

/-! The statements of 30_encoding.md: the words that raise ILLEGAL_COMMAND. -/

namespace Sys2Proof.Proofs

open Sys2Proof.Machine Sys2Proof.Safety Sys2Proof.Claims

/-- Settles O6: an illegal word either does not decode or decodes to a command that fails its operand checks, and a legal
one decodes to a well-formed command, none of whose outcomes sets ILLEGAL_COMMAND. -/
theorem illegalCommandIsRaisedExactlyByTheFiveItems : Obligations.IllegalCommandIsRaisedExactlyByTheFiveItems := by
  refine fun s w rest hin => ⟨step_illegalWord hin, fun hlegal hne => ?_⟩
  obtain ⟨i, hd, wf⟩ := Laws.not_illegalWord_iff.1 hlegal
  obtain ⟨t, ht⟩ := exec_total i (s.setInput rest)
  exact ⟨t, by rw [step_word_ok hin hd, ht], exec_errCode_ne_illegalCommand (s := s.setInput rest) wf hne ht⟩

/-- Settles O5: a reserved opcode is one half of item 1. -/
theorem reservedOpcodesRaiseIllegalCommand : Obligations.ReservedOpcodesRaiseIllegalCommand := by
  refine ⟨fun s w rest hin hop => ?_, by decide, by decide⟩
  have hill : illegalWord s.params w := hop.imp id .inl
  exact step_illegalWord hin hill

end Sys2Proof.Proofs

/-! SUPPORT. What the configuration commands need: their errors and their execution outside a session, a word's fields
against the masks and shifts that write them, and each register's value as a number. -/

namespace Sys2Proof.Laws

open Sys2Proof.Claims

/-! ### Fields and masks -/

/-- Three fields side by side, each shifted to its place. -/
theorem append_append_eq_or {a b c : Nat} (x : BitVec a) (y : BitVec b) (z : BitVec c) :
    x ++ y ++ z = (x.setWidth (a + b + c) <<< (b + c)) ||| (y.setWidth (a + b + c) <<< c) ||| z.setWidth (a + b + c) :=
  (BitVec.setWidth_eq _).symm.trans BitVec.setWidth_append_append_eq_shiftLeft_setWidth_or

theorem encode_rdcsr_eq_or (csr : BitVec 4) : encode (.rdcsr csr) = 0x20000000#32 ||| (csr.setWidth 32 <<< 24) := by
  have hfields := append_append_eq_or 0x2#4 csr 0#24
  rwa [BitVec.setWidth_zero, BitVec.or_zero] at hfields

theorem encode_wralpha_eq_or (index sym : Byte) :
    encode (.wralpha index sym) = 0x30000000#32 ||| (index.setWidth 32 <<< 8) ||| sym.setWidth 32 :=
  append_append_eq_or (0x3#4 ++ 0#12) index sym

/-- The `w`-bit word whose ones are exactly the field `[lo + len - 1 : lo]`. -/
def fieldMask (w lo len : Nat) : BitVec w := (BitVec.allOnes len).setWidth w <<< lo

theorem getLsbD_fieldMask (w lo len j : Nat) :
    (fieldMask w lo len).getLsbD j = decide (j < w ∧ lo ≤ j ∧ j - lo < len) := by
  simp only [fieldMask, BitVec.getLsbD_shiftLeft, BitVec.getLsbD_setWidth, BitVec.getLsbD_allOnes,
    ← Bool.decide_and, ← decide_not, decide_eq_decide]
  omega

/-- A word masked to a field is zero exactly when the field is (30_encoding.md R90 item 3). -/
theorem and_fieldMask_eq_zero_iff {w lo len : Nat} (h : lo + len ≤ w) (v : BitVec w) :
    v &&& fieldMask w lo len = 0 ↔ bits v lo len = 0 := by
  constructor <;> intro hz <;> refine BitVec.eq_of_getLsbD_eq fun i hi => ?_
  · have hbit : (v &&& fieldMask w lo len).getLsbD (lo + i) = false := by simp [hz]
    have hin : lo + i < w := by omega
    rw [BitVec.getLsbD_and, getLsbD_fieldMask] at hbit
    simpa [hi, hin] using hbit
  · rw [BitVec.getLsbD_and, getLsbD_fieldMask]
    by_cases hin : lo ≤ i ∧ i - lo < len
    · have hbit : (bits v lo len).getLsbD (i - lo) = false := by simp [hz]
      simpa [hin, hi] using hbit
    · simp [hin]

theorem reservedClear_mode_iff_mask (v : BitVec 24) : reservedClear .mode v = true ↔ v &&& 0x00FEF0 = 0 := by
  have hmask : (0x00FEF0 : BitVec 24) = fieldMask 24 4 4 ||| fieldMask 24 9 7 := rfl
  rw [hmask, BitVec.and_or_distrib_left, BitVec.ofNat_eq_ofNat, BitVec.or_eq_zero_iff, ← BitVec.ofNat_eq_ofNat,
    and_fieldMask_eq_zero_iff (by decide), and_fieldMask_eq_zero_iff (by decide)]
  simp [reservedClear]

theorem reservedClear_wrap_iff_mask (v : BitVec 24) : reservedClear .wrap v = true ↔ v &&& 0xFE0000 = 0 := by
  have hmask : (0xFE0000 : BitVec 24) = fieldMask 24 17 7 := rfl
  rw [hmask, and_fieldMask_eq_zero_iff (by decide)]
  simp [reservedClear]

theorem reservedClear_alen_iff_mask (v : BitVec 24) : reservedClear .alen v = true ↔ v &&& 0xFFFE00 = 0 := by
  have hmask : (0xFFFE00 : BitVec 24) = fieldMask 24 9 15 := rfl
  rw [hmask, and_fieldMask_eq_zero_iff (by decide)]
  simp [reservedClear]

/-! ### The "zero" field of RDCSR and WRALPHA (30_encoding.md R81, R89) -/

theorem decode_of_opc_two {w : Word} (h : opc w = 2) : decode w = whenZero (bits w 0 24) (.rdcsr (bits w 24 4)) := by
  simp only [decode, ← opc_eq_bits, h]

theorem decode_of_opc_three {w : Word} (h : opc w = 3) :
    decode w = whenZero (bits w 16 12) (.wralpha (bits w 8 8) (bits w 0 8)) := by
  simp only [decode, ← opc_eq_bits, h]

/-- A nonzero "zero" field refuses the word. -/
theorem whenZero_ne_ok {w : Word} {lo len : Nat} (h : field w lo len ≠ 0) (i j : Instr) :
    whenZero (bits w lo len) i ≠ .ok j := fun hok =>
  h ((field_eq_zero_iff w lo len).2 ((whenZero_ok_iff _ i j).1 hok).1)

end Sys2Proof.Laws

namespace Sys2Proof.Machine

open Sys2Proof.Safety Sys2Proof.Claims

/-! ### The two errors, and execution outside a session -/

/-- A command whose operands fail R90 raises ILLEGAL_COMMAND; in ERROR it is ignored (60_exceptions.md R197, R198). -/
theorem exec_of_fault {i : Instr} {s : State} (wf : ¬ i.WellFormed s.params) :
    exec i s = .next (if s.state = .error then s else raised s .illegalCommand) := by
  rw [exec_eq_perform, perform_of_fault wf, State.raise_eq_ite]

/-- WRCSR, WRALPHA and START execute in every state but ACTIVE (60_exceptions.md R196). -/
theorem exec_of_barred_of_ne {i : Instr} {s : State} (wf : i.WellFormed s.params) (hne : s.state ≠ .active)
    (hb : barredInActive i = true) : exec i s = .next (effectOf i s) := by
  have hfree : ignoredInError i = false ∧ needsSession i = false := by
    cases i with
    | wrcsr | wralpha | start => exact ⟨rfl, rfl⟩
    | rdcsr | push | endStream | rderr | wrerr => cases hb
  exact exec_of_executes (by simp [admission_of_wellFormed wf, hne, hfree])

/-- WRCSR of the register `c` writes it, outside a session (40_config.md R102). -/
theorem exec_wrcsr_number {c : Csr} {value : BitVec 24} {s : State}
    (wf : (Instr.wrcsr c.number value).WellFormed s.params) (hne : s.state ≠ .active) :
    exec (.wrcsr c.number value) s = .next (s.writeCsr c value) := by
  rw [exec_of_barred_of_ne wf hne rfl, effectOf, wrcsrEffect, Laws.ofNumber_number]

/-! ### The registers' values (10_state.md R36 to R38) -/

theorem SessionState.code_toNat (st : SessionState) : st.code.toNat = stateValue st := by cases st <;> rfl

theorem ErrCode.code_toNat (e : ErrCode) : e.code.toNat = codeValue e := by cases e <;> rfl

theorem State.statusWord_toNat (s : State) : s.statusWord.toNat = stateValue s.state + 2 ^ 4 * codeValue s.errCode := by
  simp only [State.statusWord, Laws.toNat_append, SessionState.code_toNat, ErrCode.code_toNat, BitVec.toNat_ofNat]
  omega

/-- No width's geometry needs more than the 4 bits of its GEOM field (00_scope.md R8). -/
theorem symsPerChunk_le (k : Nat) : symsPerChunk k ≤ 8 := by
  by_cases h : 1 ≤ k ∧ k ≤ 8
  · obtain ⟨-, -, -, h8, -⟩ := geometry_arith h.1 h.2
    exact h8
  · simp [symsPerChunk, h]

theorem State.geomWord_toNat (s : State) :
    s.geomWord.toNat = chunkBytes s.bitWidth + 2 ^ 4 * symsPerChunk s.bitWidth := by
  have hc : chunkBytes s.bitWidth ≤ 7 := Laws.Config.chunkBytes_le _
  have hs : symsPerChunk s.bitWidth ≤ 8 := symsPerChunk_le _
  simp only [State.geomWord, State.chunk, State.syms, Laws.toNat_append, BitVec.toNat_ofNat]
  omega

theorem State.countWord_toNat (s : State) : s.countWord.toNat = s.byteCnt.toNat + 2 ^ 16 * s.col.toNat := by
  simp only [State.countWord, Laws.toNat_append, BitVec.toNat_ofNat, BitVec.setWidth_eq]
  omega

/-- Every register but ACC fits its word. -/
theorem State.readCsr_toNat {c : Csr} (hc : c ≠ .acc) (s : State) :
    (s.readCsr c).toNat = csrValue s c.number.toNat := by
  cases c with
  | mode | wrap | alen => exact BitVec.toNat_setWidth_of_le (by decide)
  | status => exact s.statusWord_toNat
  | geom => exact s.geomWord_toNat
  | count => exact s.countWord_toNat
  | acc => exact absurd rfl hc

/-- The word of ACC, in a build where it fits and where its layout is open (10_state.md R37; log entry 10). -/
theorem State.accWord_eq_ofNat (s : State) : s.accWord = BitVec.ofNat 32 (csrValue s 5) := by
  by_cases hfits : s.params.accBits ≤ 32
  · simp only [State.accWord, csrValue, hfits, if_true, BitVec.ofNat_toNat]
  · simp only [State.accWord, csrValue, hfits, if_false, BitVec.ofNat_toNat, BitVec.setWidth_eq]

theorem State.readCsr_eq_ofNat (s : State) (c : Csr) : s.readCsr c = BitVec.ofNat 32 (csrValue s c.number.toNat) := by
  by_cases hc : c = .acc
  · rw [hc]
    exact s.accWord_eq_ofNat
  · rw [← State.readCsr_toNat hc, BitVec.ofNat_toNat, BitVec.setWidth_eq]

/-- Under the invariant ACC has ACC_BITS bits, so it fits its word where it is read as it stands (10_state.md R37). -/
theorem csrValue_lt {s : State} (inv : Inv s) (c : Csr) : csrValue s c.number.toNat < 2 ^ 32 := by
  by_cases hc : c = .acc
  · rw [hc]
    show (if s.params.accBits ≤ 32 then _ else _) < 2 ^ 32
    split
    next hfits => exact inv.accWidth.trans_le (Nat.pow_le_pow_right (by decide) hfits)
    next => exact BitVec.isLt _
  · exact State.readCsr_toNat hc s ▸ BitVec.isLt _

end Sys2Proof.Machine

/-! The statements of 40_config.md: WRCSR, RDCSR, WRALPHA and START. -/

namespace Sys2Proof.Proofs

open Sys2Proof.Machine Sys2Proof.Safety Sys2Proof.Claims

/-- Settles O22: outside ACTIVE WRCSR writes the register of its number, and R90's reserved bits are three masks. -/
theorem wrcsrWritesTheRegisterItNames : Obligations.WrcsrWritesTheRegisterItNames := by
  intro s csr value
  refine ⟨fun wf => ⟨fun hact => exec_of_barred wf hact rfl, ?_, ?_, ?_⟩, ?_, exec_of_fault⟩
  · rintro hne rfl
    exact exec_wrcsr_number (c := .mode) wf hne
  · rintro hne rfl
    exact exec_wrcsr_number (c := .wrap) wf hne
  · rintro hne rfl
    exact exec_wrcsr_number (c := .alen) wf hne
  · rw [Laws.wrcsr_wellFormed_iff, Laws.reservedClear_mode_iff_mask, Laws.reservedClear_wrap_iff_mask,
      Laws.reservedClear_alen_iff_mask]
    have hcsr : csr = 0 ∨ csr = 1 ∨ csr = 2 ∨ 3 ≤ csr.toNat := by bv_omega
    rcases hcsr with rfl | rfl | rfl | hreserved
    · simp
    · simp
    · simp
    · obtain ⟨h0, h1, h2⟩ : csr ≠ 0 ∧ csr ≠ 1 ∧ csr ≠ 2 := by bv_omega
      simp only [hreserved, h0, h1, h2, false_and, or_self, or_false, not_true_eq_false]

/-- Settles O23: RDCSR responds with its register's word, whose number is `csrValue`. -/
theorem rdcsrAppendsTheRegistersValue : Obligations.RdcsrAppendsTheRegistersValue := by
  refine ⟨fun s csr => ⟨fun hlt => ?_, fun hlt inv => ?_, Laws.encode_rdcsr_eq_or csr, fun hle => ?_⟩,
    fun w hop hnz i => ?_⟩
  · obtain ⟨c, hc⟩ := exists_csr_of_lt hlt
    rw [exec_rdcsr_eq_respond hc, State.readCsr_eq_ofNat, ← (Laws.ofNumber_eq_some_iff csr c).1 hc]
    rfl
  · obtain ⟨c, hc⟩ := exists_csr_of_lt hlt
    rw [(Laws.ofNumber_eq_some_iff csr c).1 hc]
    exact csrValue_lt inv c
  · exact exec_of_fault fun wf => hle.not_gt ((Laws.rdcsr_wellFormed_iff s.params csr).1 wf)
  · rw [Laws.decode_of_opc_two hop]
    exact Laws.whenZero_ne_ok hnz _ i

/-- Settles O25: WRALPHA's effect is one entry of the table. -/
theorem wralphaWritesItsEntryAlone : Obligations.WralphaWritesItsEntryAlone := by
  refine ⟨fun s index sym => ?_, fun w hop hnz i => ?_⟩
  · have hwf := Laws.wralpha_wellFormed_iff s.params index sym
    refine ⟨fun hlt hact => exec_of_barred (hwf.2 hlt) hact rfl, fun hlt hne => ?_,
      fun hle => exec_of_fault fun wf => hle.not_gt (hwf.1 wf), Laws.encode_wralpha_eq_or index sym⟩
    refine ⟨s.setAlphabet index.toNat sym, exec_of_barred_of_ne (hwf.2 hlt) hne rfl, rfl, fun hlen j => ?_⟩
    rw [State.setAlphabet_alphabet, List.getElem?_set, hlen]
    simp [hlt, eq_comm]
  · rw [Laws.decode_of_opc_three hop]
    exact Laws.whenZero_ne_ok hnz _ i

/-- Settles O27: START is barred in ACTIVE and executes elsewhere, and its effect is the one the check decides on. -/
theorem startChecksTheConfiguration : Obligations.StartChecksTheConfiguration := by
  intro s
  refine ⟨fun hact => exec_of_barred rfl hact rfl, fun hne hv => ?_, fun hne hv => ?_⟩
  · rw [exec_start hne, startEffect_of_invalid hv]
    rfl
  · rw [exec_start hne, startEffect_of_valid hv]
    rfl

end Sys2Proof.Proofs

/-! SUPPORT. AccInsert as a change of two registers: its byte's field of ACC, and the count. -/

namespace Sys2Proof.Machine

/-- AccInsert changes ACC and BYTE_CNT alone, and counts its byte (41_datapath.md R132). -/
theorem State.accInsert_eq (s : State) (b : Byte) :
    s.accInsert b =
      { s with acc := (s.accInsert b).acc, byteCnt := BitVec.ofNat 3 (s.byteCnt.toNat + 1) } := by
  have hcount : s.byteCnt + 1 = BitVec.ofNat 3 (s.byteCnt.toNat + 1) := by
    simp [BitVec.ofNat_add]
  rw [← hcount]
  rfl

/-- Below C, the field AccInsert writes is the byte `C - 1 - BYTE_CNT` of ACC (41_datapath.md R132). -/
theorem State.accInsert_acc_getLsbD {s : State} (h : s.byteCnt.toNat < s.chunk) (b : Byte) {i : Nat} (hi : i < 56) :
    (s.accInsert b).acc.getLsbD i =
      if 8 * (s.chunk - s.byteCnt.toNat - 1) ≤ i ∧ i < 8 * (s.chunk - s.byteCnt.toNat) then
        b.getLsbD (i - 8 * (s.chunk - s.byteCnt.toNat - 1))
      else s.acc.getLsbD i := by
  have hfield : 8 * (s.chunk - s.byteCnt.toNat) = 8 * (s.chunk - s.byteCnt.toNat - 1) + 8 := by omega
  rw [hfield]
  exact insertByte_getLsbD s.acc _ b i hi

end Sys2Proof.Machine

/-! The statements of 41_datapath.md: the accumulator and the line-wrap counter. -/

namespace Sys2Proof.Proofs

open Sys2Proof.Machine Sys2Proof.Safety Sys2Proof.Claims

/-- Settles O32: the frame holds in every state, and below C the field written is the byte's own. -/
theorem accInsertSetsItsByteAlone : Obligations.AccInsertSetsItsByteAlone :=
  fun s b h => ⟨s.accInsert_eq b, fun _ hi => State.accInsert_acc_getLsbD h b hi⟩

/-- Settles O36: the closed form of EmitSymbol, with wrap off, inside a line, and at the line's last symbol. -/
theorem lineWrapCounterCountsTheColumn : Obligations.LineWrapCounterCountsTheColumn := by
  refine ⟨fun s ch => ⟨fun hoff => ?_, fun hon hlt => ?_, fun hon hlast => ?_⟩, fun _ => rfl⟩
  · rw [State.emitSymbol_eq s ch (by simp [hoff])]
    simp [hoff, newlineAfter, columnAfter]
  · have hcol : s.col.toNat < s.wrapWidth.toNat := by omega
    rw [State.emitSymbol_eq s ch fun _ => hcol, newlineAfter_of_lt _ _ hcol]
    simp [hon, hlt.ne, columnAfter, Nat.mod_eq_of_lt hlt]
  · have hcol : s.col.toNat < s.wrapWidth.toNat := by omega
    rw [State.emitSymbol_eq s ch fun _ => hcol, newlineAfter_of_lt _ _ hcol]
    simp [hon, hlast, columnAfter]

end Sys2Proof.Proofs

/-! SUPPORT. What the stream commands need: a command that needs a session, in each of the four states; one EmitChunk in
closed form; ACC, its byte and the flush of a short chunk in a session. -/

namespace Sys2Proof.Laws

open Sys2Proof.Claims

theorem encode_push_eq_or (b : Byte) : encode (.push b) = 0x50000000#32 ||| b.setWidth 32 :=
  append_append_eq_or 0x5#4 0#20 b

theorem decode_of_opc_five {w : Word} (h : opc w = 5) : decode w = whenZero (bits w 8 20) (.push (bits w 0 8)) := by
  simp only [decode, ← opc_eq_bits, h]

end Sys2Proof.Laws

namespace Sys2Proof.Safety

/-- The lines read their symbols at the positions below `n` alone. -/
theorem lines_congr {f g : Nat → Byte} {n : Nat} (h : ∀ j < n, f j = g j) (nl : Byte) (en : Bool) (width col : Nat) :
    lines nl en width col n f = lines nl en width col n g :=
  List.flatMap_congr fun j hj => by rw [h j (List.mem_range.1 hj)]

end Sys2Proof.Safety

namespace Sys2Proof.Machine

open Sys2Proof.Safety Sys2Proof.Claims

/-! ### PUSH and END in each state (60_exceptions.md R196) -/

theorem admission_of_needsSession {i : Instr} (hn : needsSession i = true) (p : Params) (st : SessionState) :
    admission p i st =
      match st with
      | .idle | .done => .outOfSequence
      | .active => .executes
      | .error => .ignored := by
  cases i with
  | push | endStream => cases st <;> rfl
  | wrcsr | rdcsr | wralpha | start | rderr | wrerr => cases hn

theorem exec_of_needsSession_active {i : Instr} {s : State} (hn : needsSession i = true) (hact : s.state = .active) :
    exec i s = .next (effectOf i s) :=
  exec_of_executes (by rw [admission_of_needsSession hn, hact])

theorem exec_of_needsSession_outside {i : Instr} {s : State} (hn : needsSession i = true)
    (hout : s.state = .idle ∨ s.state = .done) : exec i s = .next (raised s .sequenceError) := by
  have had : admission s.params i s.state = .outOfSequence := by
    rw [admission_of_needsSession hn]
    rcases hout with h | h <;> rw [h]
  have hne : s.state ≠ .error := by rcases hout with h | h <;> simp [h]
  rw [exec_eq_perform, perform, had, ← State.raise_eq_raised hne]

theorem exec_of_needsSession_error {i : Instr} {s : State} (hn : needsSession i = true) (herr : s.state = .error) :
    exec i s = .next s := by
  rw [exec_eq_perform, perform, admission_of_needsSession hn, herr]

/-! ### One EmitChunk and FinishLine -/

/-- EmitChunk in closed form (41_datapath.md R137, R142, R147): position `j` of the loop is group `j` of the packed word. -/
theorem State.emitChunk_eq {s : State} (r : Nat) (h1 : 1 ≤ s.bitWidth) (h8 : s.bitWidth ≤ 8) (hcol : columnFits s) :
    s.emitChunk r =
      { s with
        out := s.out ++ chunkText s r (s.acc.toNat % 2 ^ (8 * s.chunk))
        col := BitVec.ofNat 16 (columnAfter s.wrapEn s.wrapWidth.toNat s.col.toNat s.syms)
        acc := 0
        byteCnt := 0 } := by
  obtain ⟨-, -, -, -, hgeom⟩ := geometry_arith h1 h8
  have hsymbol : ∀ j < s.syms,
      s.positionChar r (0 + j) (topBits (s.packed <<< (s.bitWidth * j)) s.bitWidth) =
        symbolAt s (8 * s.chunk) r (s.acc.toNat % 2 ^ (8 * s.chunk)) j := by
    intro j hj
    have hgroup : s.bitWidth * (j + 1) ≤ 8 * s.chunk := (Nat.mul_le_mul_left _ hj).trans_eq hgeom
    rw [topBits_shift _ hgroup, State.packed, BitVec.toNat_setWidth, Nat.zero_add]
    simp [State.positionChar, symbolAt, isReal]
  rw [State.emitChunk, emitPositions_eq _ _ _ _ _ hcol, lines_congr hsymbol]
  rfl

/-- FinishLine leaves no open line, where without wrap there is none (41_datapath.md R148). -/
theorem State.finishLine_eq {s : State} (h : s.wrapEn = false → s.col = 0) :
    s.finishLine =
      { s with out := s.out ++ (if s.wrapEn = true ∧ s.col ≠ 0 then [s.params.nlChar] else []), col := 0 } := by
  unfold State.finishLine
  by_cases hopen : s.wrapEn = true ∧ s.col ≠ 0
  · rw [if_pos hopen, if_pos hopen]
    rfl
  · have hcol : s.col = 0 := by
      cases he : s.wrapEn
      · exact h he
      · simpa [he] using hopen
    rw [if_neg hopen, if_neg hopen, List.append_nil, ← hcol]

theorem columnAfter_lt {s : State} (h : columnFits s) (n : Nat) :
    columnAfter s.wrapEn s.wrapWidth.toNat s.col.toNat n < 2 ^ 16 := by
  unfold columnAfter
  split
  next he => exact (Nat.mod_lt _ (Nat.zero_lt_of_lt (h he))).trans s.wrapWidth.isLt
  next => exact s.col.isLt

/-- The column END's flush leaves (42_stream.md R166). -/
def flushColumn (s : State) : Nat :=
  if 0 < s.byteCnt.toNat then columnAfter s.wrapEn s.wrapWidth.toNat s.col.toNat s.syms else s.col.toNat

/-! ### A session's datapath under the invariant -/

section Session

variable {s : State} (inv : Inv s) (hact : s.state = .active)
include inv hact

/-- A session's chunk is short enough for BYTE_CNT to count it and for ACC to hold it (00_scope.md R8). -/
theorem chunk_le_seven : s.chunk ≤ 7 := by
  obtain ⟨-, -, -, h7, -⟩ := State.configValid_arith (inv.config hact)
  exact h7

/-- ACC has no bit beyond the chunk (10_state.md R33). -/
theorem acc_lt_of_inv : s.acc.toNat < 2 ^ (8 * s.chunk) := by
  refine Nat.lt_pow_two_of_testBit _ fun i hi => Bool.eq_false_iff.2 fun hbit => ?_
  obtain ⟨-, hlt⟩ := inv.accBits hact i hbit
  omega

/-- The bytes of the chunk not read yet are zero in ACC (10_state.md R33). -/
theorem acc_mod_eq_zero_of_inv : s.acc.toNat % 2 ^ (8 * (s.chunk - s.byteCnt.toNat)) = 0 := by
  refine Nat.eq_of_testBit_eq fun i => ?_
  rw [Nat.testBit_mod_two_pow, Nat.zero_testBit]
  by_contra hbit
  obtain ⟨hlt, hbit⟩ : i < 8 * (s.chunk - s.byteCnt.toNat) ∧ s.acc.toNat.testBit i = true := by simpa using hbit
  obtain ⟨hle, -⟩ := inv.accBits hact i hbit
  omega

theorem acc_eq_zero_of_byteCnt (h : s.byteCnt.toNat = 0) : s.acc = 0 := by
  have hmod := acc_mod_eq_zero_of_inv inv hact
  rw [h, Nat.sub_zero, Nat.mod_eq_of_lt (acc_lt_of_inv inv hact)] at hmod
  exact BitVec.eq_of_toNat_eq hmod

/-- AccInsert in a session adds its byte to ACC at its place, and counts it (41_datapath.md R132). -/
theorem accInsert_of_inv (b : Byte) :
    s.accInsert b =
      { s with
        acc := s.acc + BitVec.ofNat 56 (b.toNat * 2 ^ (8 * (s.chunk - 1 - s.byteCnt.toNat)))
        byteCnt := s.byteCnt + 1 } := by
  have h7 := chunk_le_seven inv hact
  have hcount := inv.count hact
  have hfree : ∀ i, 8 * (s.chunk - s.byteCnt.toNat - 1) ≤ i → i < 8 * (s.chunk - s.byteCnt.toNat - 1) + 8 →
      s.acc.getLsbD i = false := by
    intro i _ hi
    refine Bool.eq_false_iff.2 fun hbit => ?_
    obtain ⟨hle, -⟩ := inv.accBits hact i hbit
    omega
  rw [State.accInsert, insertByte_of_zero _ _ _ (by omega) hfree, Nat.sub_right_comm]
  rfl

theorem byteCnt_succ_toNat : (s.byteCnt + 1).toNat = s.byteCnt.toNat + 1 := by
  have h7 := chunk_le_seven inv hact
  have hcount := inv.count hact
  bv_omega

/-- The chunk's last byte completes the packed word, which still fits the chunk (41_datapath.md R133). -/
theorem acc_add_byte_lt (h : s.byteCnt.toNat + 1 = s.chunk) (b : Byte) :
    s.acc.toNat + b.toNat < 2 ^ (8 * s.chunk) := by
  have hlt := acc_lt_of_inv inv hact
  have hmod := acc_mod_eq_zero_of_inv inv hact
  rw [← h, Nat.add_sub_cancel_left] at hmod
  rw [← h, Nat.mul_succ, pow_add] at hlt ⊢
  omega

theorem accInsert_acc_toNat_of_eq (h : s.byteCnt.toNat + 1 = s.chunk) (b : Byte) :
    (s.accInsert b).acc.toNat = s.acc.toNat + b.toNat := by
  have hplace : s.chunk - 1 - s.byteCnt.toNat = 0 := by omega
  have hroom : 2 ^ (8 * s.chunk) ≤ 2 ^ 56 :=
    Nat.pow_le_pow_right (by decide) (Nat.mul_le_mul_left 8 (chunk_le_seven inv hact))
  have hlt := acc_add_byte_lt inv hact h b
  rw [accInsert_of_inv inv hact, hplace, Nat.mul_zero, pow_zero, Nat.mul_one, BitVec.toNat_add, BitVec.toNat_ofNat,
    Nat.add_mod_mod]
  exact Nat.mod_eq_of_lt (hlt.trans_le hroom)

/-- PUSH inside a chunk (42_stream.md R160). -/
theorem pushEffect_of_lt (h : s.byteCnt.toNat + 1 < s.chunk) (b : Byte) : pushEffect b s = s.accInsert b := by
  have hcount : (s.accInsert b).byteCnt.toNat = s.byteCnt.toNat + 1 := byteCnt_succ_toNat inv hact
  exact if_neg (hcount.trans_ne h.ne)

/-- PUSH of the chunk's last byte (42_stream.md R160, R161). -/
theorem pushEffect_of_eq (h : s.byteCnt.toNat + 1 = s.chunk) (b : Byte) :
    pushEffect b s =
      { s with
        out := s.out ++ chunkText s s.chunk (s.acc.toNat + b.toNat)
        col := BitVec.ofNat 16 (columnAfter s.wrapEn s.wrapWidth.toNat s.col.toNat s.syms)
        acc := 0
        byteCnt := 0 } := by
  have hcount : (s.accInsert b).byteCnt.toNat = s.byteCnt.toNat + 1 := byteCnt_succ_toNat inv hact
  have hfull : pushEffect b s = (s.accInsert b).emitChunk s.chunk := if_pos (hcount.trans h)
  have hpacked : (s.accInsert b).acc.toNat % 2 ^ (8 * (s.accInsert b).chunk) = s.acc.toNat + b.toNat := by
    rw [accInsert_acc_toNat_of_eq inv hact h]
    exact Nat.mod_eq_of_lt (acc_add_byte_lt inv hact h b)
  obtain ⟨h1, h8, -⟩ := State.configValid_arith (inv.config hact)
  rw [hfull, State.emitChunk_eq (s := s.accInsert b) s.chunk h1 h8 (inv.column hact), hpacked]
  rfl

/-- END's flush of the short chunk, if a byte of it was read (42_stream.md R166). -/
theorem flushChunk_of_inv :
    s.flushChunk =
      { s with
        out := s.out ++ (if 0 < s.byteCnt.toNat then chunkText s s.byteCnt.toNat s.acc.toNat else [])
        col := BitVec.ofNat 16 (flushColumn s)
        acc := 0
        byteCnt := 0 } := by
  unfold State.flushChunk flushColumn
  by_cases hread : 0 < s.byteCnt.toNat
  · obtain ⟨h1, h8, -⟩ := State.configValid_arith (inv.config hact)
    simp only [hread, if_true]
    rw [State.emitChunk_eq _ h1 h8 (inv.column hact), Nat.mod_eq_of_lt (acc_lt_of_inv inv hact)]
  · have hzero : s.byteCnt = 0 := BitVec.eq_of_toNat_eq (Nat.eq_zero_of_not_pos hread)
    have hacc : s.acc = 0 := acc_eq_zero_of_byteCnt inv hact (Nat.eq_zero_of_not_pos hread)
    simp only [hread, if_false, List.append_nil, BitVec.ofNat_toNat, BitVec.setWidth_eq]
    rw [← hacc, ← hzero]

theorem flushColumn_lt : flushColumn s < 2 ^ 16 := by
  unfold flushColumn
  split
  · exact columnAfter_lt (inv.column hact) s.syms
  · exact s.col.isLt

theorem flushColumn_of_wrapEn_false (he : s.wrapEn = false) : flushColumn s = 0 := by
  simp [flushColumn, columnAfter, he, inv.noColumn hact he]

/-- END in a session (42_stream.md R166, R167): the flush, the newline of an open line, and DONE. -/
theorem endEffect_of_inv :
    endEffect s =
      { s with
        state := .done
        out := s.out ++ (if 0 < s.byteCnt.toNat then chunkText s s.byteCnt.toNat s.acc.toNat else [])
          ++ (if s.wrapEn = true ∧ flushColumn s ≠ 0 then [s.params.nlChar] else [])
        acc := 0
        byteCnt := 0
        col := 0 } := by
  have hflush := flushChunk_of_inv inv hact
  have hcol : s.flushChunk.col.toNat = flushColumn s := by
    rw [hflush]
    exact (BitVec.toNat_ofNat ..).trans (Nat.mod_eq_of_lt (flushColumn_lt inv hact))
  have hclosed : s.flushChunk.wrapEn = false → s.flushChunk.col = 0 := by
    intro he
    have he : s.wrapEn = false := by rwa [hflush] at he
    exact BitVec.eq_of_toNat_eq (hcol.trans (flushColumn_of_wrapEn_false inv hact he))
  have hopen : s.flushChunk.col ≠ 0 ↔ flushColumn s ≠ 0 := by
    rw [← hcol, ne_eq, ne_eq, ← BitVec.toNat_inj, BitVec.ofNat_eq_ofNat, BitVec.toNat_ofNat, Nat.zero_mod]
  rw [endEffect, State.finishLine_eq hclosed]
  simp only [hopen]
  rw [hflush]
  rfl

end Session

end Sys2Proof.Machine

/-! The statements of 42_stream.md: PUSH and END. -/

namespace Sys2Proof.Proofs

open Sys2Proof.Machine Sys2Proof.Safety Sys2Proof.Claims

/-- Settles O39: in ACTIVE PUSH's effect is AccInsert or one EmitChunk of the full word, as BYTE_CNT + 1 is below or at C. -/
theorem pushStoresItsByteOrEmitsTheChunk : Obligations.PushStoresItsByteOrEmitsTheChunk := by
  refine ⟨fun s b inv hact => ⟨fun hlt => ?_, fun hfull => ?_, Nat.lt_or_eq_of_le (inv.count hact)⟩,
    fun s b => ⟨exec_of_needsSession_outside rfl, exec_of_needsSession_error rfl⟩, Laws.encode_push_eq_or,
    fun w hop hnz i => ?_⟩
  · rw [exec_of_needsSession_active rfl hact, effectOf, pushEffect_of_lt inv hact hlt, accInsert_of_inv inv hact]
  · rw [exec_of_needsSession_active rfl hact, effectOf, pushEffect_of_eq inv hact hfull]
  · rw [Laws.decode_of_opc_five hop]
    exact Laws.whenZero_ne_ok hnz _ i

/-- Settles O40: END's effect is the flush and the end of an open line, and it leaves DONE, where a second END is out of
sequence. -/
theorem endFlushesTheChunkAndEndsTheSession : Obligations.EndFlushesTheChunkAndEndsTheSession := by
  refine ⟨fun s inv hact => ?_, fun s => ⟨exec_of_needsSession_outside rfl, exec_of_needsSession_error rfl⟩,
    fun s t hact h => ?_⟩
  · exact (exec_of_needsSession_active rfl hact).trans (congrArg _ (endEffect_of_inv inv hact))
  · obtain ⟨o, c, a, n, -, hend⟩ := endEffect_shape s
    have hdone : (effectOf .endStream s).state = .done := by rw [effectOf, hend]
    rw [execAll_cons (exec_of_needsSession_active rfl hact),
      execAll_cons (exec_of_needsSession_outside rfl (.inr hdone)), execAll_nil] at h
    cases h
    exact ⟨rfl, rfl⟩

end Sys2Proof.Proofs

/-! SUPPORT. RDERR and WRERR in every state: each is the shared `raise` with its own code. -/

namespace Sys2Proof.Machine

/-- The error reports are ignored in ERROR and execute in every other state (60_exceptions.md R196). -/
theorem admission_of_report {i : Instr} (hi : i = .rderr ∨ i = .wrerr) (p : Params) (st : SessionState) :
    admission p i st = if st = .error then .ignored else .executes := by
  rcases hi with rfl | rfl <;> cases st <;> rfl

/-- A report that is ignored in ERROR and one that executes are both a `raise`, since `raise` has no effect in ERROR. -/
theorem exec_of_report {i : Instr} {s : State} {e : ErrCode} (hi : i = .rderr ∨ i = .wrerr)
    (heffect : effectOf i s = s.raise e) : exec i s = .next (s.raise e) := by
  have hadmit := admission_of_report hi s.params s.state
  by_cases herr : s.state = .error
  · rw [exec_eq_perform, perform, hadmit, if_pos herr, State.raise_of_error herr e]
  · rw [exec_of_executes (hadmit.trans (if_neg herr)), heffect]

/-- RDERR (43_error_reports.md R180). -/
theorem exec_rderr (s : State) : exec .rderr s = .next (s.raise .ioErrorSource) :=
  exec_of_report (.inl rfl) rfl

/-- WRERR (43_error_reports.md R184). -/
theorem exec_wrerr (s : State) : exec .wrerr s = .next (s.raise .ioErrorSink) :=
  exec_of_report (.inr rfl) rfl

end Sys2Proof.Machine

/-! The statements of 43_error_reports.md: RDERR and WRERR. -/

namespace Sys2Proof.Proofs

open Sys2Proof.Machine Sys2Proof.Safety Sys2Proof.Claims

/-- Settles O41: RDERR is `raise` of IO_ERROR_SOURCE, which sets STATE and ERR_CODE outside ERROR and nothing in it. -/
theorem rderrRaisesIoErrorSource : Obligations.RderrRaisesIoErrorSource := by
  refine fun s => ⟨fun hne => ?_, fun herr => ?_, rfl⟩
  · rw [exec_rderr, State.raise_eq_raised hne, raised]
  · rw [exec_rderr, State.raise_of_error herr]

/-- Settles O42: WRERR is `raise` of IO_ERROR_SINK, which ends in ERROR from every state, where PUSH and END are ignored. -/
theorem wrerrRaisesIoErrorSink : Obligations.WrerrRaisesIoErrorSink := by
  refine fun s => ⟨fun hne => ?_, fun herr => ?_, fun b t h => ?_⟩
  · rw [exec_wrerr, State.raise_eq_raised hne, raised]
  · rw [exec_wrerr, State.raise_of_error herr]
  · rw [exec_wrerr] at h
    cases h
    have herr : (s.raise .ioErrorSink).state = .error := State.raise_state s _
    exact ⟨exec_of_needsSession_error rfl herr, exec_of_needsSession_error rfl herr⟩

end Sys2Proof.Proofs

/-! SUPPORT. The checks of 60_exceptions.md R197 as the statements write them, by mnemonic, and what a command's effect
can do to STATE. -/

namespace Sys2Proof.Machine

open Sys2Proof.Claims

/-! ### The order of the checks, by mnemonic (60_exceptions.md R197) -/

theorem ignoredInError_iff_mnemonic (i : Instr) :
    ignoredInError i = true ↔ mnemonic i ∈ ["PUSH", "END", "RDERR", "WRERR"] := by
  cases i <;> simp [ignoredInError, mnemonic]

theorem barredInActive_iff_mnemonic (i : Instr) :
    barredInActive i = true ↔ mnemonic i ∈ ["WRCSR", "WRALPHA", "START"] := by
  cases i <;> simp [barredInActive, mnemonic]

theorem needsSession_iff_mnemonic (i : Instr) : needsSession i = true ↔ mnemonic i ∈ ["PUSH", "END"] := by
  cases i <;> simp [needsSession, mnemonic]

/-- Where a command is not ignored, its effect is the one R197 names: an error report's `raise` sets its two registers. -/
theorem effectOf_eq_executed {i : Instr} {s : State} (h : ¬ (s.state = .error ∧ ignoredInError i = true)) :
    effectOf i s = executed i s := by
  cases i with
  | rderr | wrerr => exact State.raise_eq_raised (fun herr => h ⟨herr, rfl⟩) _
  | wrcsr | rdcsr | wralpha | start | push | endStream => rfl

/-- R197's checks on a well-formed command, in their order, with the state each ends in. -/
def checkedState (i : Instr) (s : State) : State :=
  if s.state = .error ∧ mnemonic i ∈ ["PUSH", "END", "RDERR", "WRERR"] then s
  else if s.state = .active ∧ mnemonic i ∈ ["WRCSR", "WRALPHA", "START"] then raised s .sequenceError
  else if s.state ∈ [.idle, .done] ∧ mnemonic i ∈ ["PUSH", "END"] then raised s .sequenceError
  else executed i s

theorem exec_eq_checkedState {i : Instr} {s : State} (wf : i.WellFormed s.params) :
    exec i s = .next (checkedState i s) := by
  have hquiet : s.state ∈ [.idle, .done] ↔ s.state = .idle ∨ s.state = .done := by simp
  rw [exec_eq_perform, perform, admission_of_wellFormed wf]
  simp only [checkedState, hquiet, ← ignoredInError_iff_mnemonic, ← barredInActive_iff_mnemonic,
    ← needsSession_iff_mnemonic]
  split_ifs with hignored hbarred houtside
  · rfl
  · rw [← State.raise_eq_raised (by simp [hbarred.1])]
  · have hne : s.state ≠ .error := by rcases houtside.1 with h | h <;> simp [h]
    rw [← State.raise_eq_raised hne]
  · rw [← effectOf_eq_executed hignored]

/-! ### The legality table (60_exceptions.md R196) -/

/-- The cells of RDERR and WRERR that name a code are those commands' own effects. -/
theorem verdictState_report_or_executes (i : Instr) (s : State) :
    verdictState i s (if mnemonic i = "RDERR" then .raises .ioErrorSource
      else if mnemonic i = "WRERR" then .raises .ioErrorSink else .executes) = executed i s := by
  cases i <;> rfl

/-- The table's cell for a command in a state is what R197's checks make of it there. -/
theorem verdictState_legality (i : Instr) (s : State) :
    verdictState i s (legality (mnemonic i) s.state) = checkedState i s := by
  have report := verdictState_report_or_executes i s
  unfold checkedState
  cases hst : s.state with
  | idle | done =>
    by_cases hm : mnemonic i ∈ ["PUSH", "END"]
    · simp [legality, hm, verdictState]
    · simp [legality, hm, report]
  | active =>
    by_cases hm : mnemonic i ∈ ["WRCSR", "WRALPHA", "START"]
    · simp [legality, hm, verdictState]
    · simp [legality, hm, report]
  | error =>
    by_cases hm : mnemonic i ∈ ["PUSH", "END", "RDERR", "WRERR"] <;> simp [legality, hm, verdictState]

/-! ### STATE under a command's effect (10_state.md R22) -/

/-- What a command's effect does to STATE: nothing, or it raises an error and nothing else, or it starts a session, or it
ends one. -/
theorem effectOf_state_cases {i : Instr} (s : State) (wf : i.WellFormed s.params) :
    (effectOf i s).state = s.state ∨ (∃ e, effectOf i s = raised s e) ∨
    (i = .start ∧ s.configValid = true ∧ effectOf i s = s.beginSession) ∨
    (i = .endStream ∧ (effectOf i s).state = .done) := by
  cases i with
  | wrcsr csr value =>
    rcases wrcsrEffect_eq csr value s with h | ⟨c, h⟩ <;> simp [effectOf, h]
  | rdcsr csr =>
    obtain ⟨v, h⟩ := rdcsrEffect_of_lt ((Laws.rdcsr_wellFormed_iff s.params csr).1 wf) s
    simp [effectOf, h]
  | wralpha index sym => exact .inl rfl
  | start =>
    cases hv : s.configValid
    · exact .inr (.inl ⟨_, startEffect_of_invalid hv⟩)
    · exact .inr (.inr (.inl ⟨rfl, rfl, startEffect_of_valid hv⟩))
  | push b =>
    obtain ⟨o, c, a, n, -, h⟩ := pushEffect_shape b s
    simp [effectOf, h]
  | endStream =>
    obtain ⟨o, c, a, n, -, h⟩ := endEffect_shape s
    simp [effectOf, h]
  | rderr | wrerr =>
    by_cases herr : s.state = .error
    · exact .inl (congrArg State.state (State.raise_of_error herr _))
    · exact .inr (.inl ⟨_, State.raise_eq_raised herr _⟩)

/-- A START that ends in ACTIVE began a session (40_config.md R115 to R118). -/
theorem eq_beginSession_of_start {s t : State} (h : exec .start s = .next t) (hact : t.state = .active) :
    t = s.beginSession := by
  by_cases hs : s.state = .active
  · rw [exec_of_barred rfl hs rfl] at h
    cases h
    cases hact
  rw [exec_start hs] at h
  cases h
  cases hv : s.configValid
  · rw [startEffect_of_invalid hv] at hact
    cases hact
  · exact startEffect_of_valid hv

/-- In ERROR only START changes ERR_CODE (60_exceptions.md R198). -/
theorem eq_start_of_errCode_ne {i : Instr} {s t : State} (herr : s.state = .error) (h : exec i s = .next t)
    (hne : t.errCode ≠ s.errCode) : i = .start := by
  have hraise : ∀ e, (s.raise e).errCode = s.errCode := fun e => by rw [State.raise_of_error herr]
  rcases exec_inv h with ⟨-, rfl⟩ | rfl | ⟨-, rfl⟩ | ⟨wf, -, rfl⟩
  · exact absurd (hraise _) hne
  · exact absurd rfl hne
  · exact absurd (hraise _) hne
  · rcases effectOf_errCode s wf with hc | ⟨hi, -⟩ | ⟨rfl, -⟩ | ⟨rfl, -⟩
    · exact absurd hc hne
    · exact hi
    · exact absurd (hraise _) hne
    · exact absurd (hraise _) hne

end Sys2Proof.Machine

/-! The statements of 60_exceptions.md: the order of the checks, the legality table, and the error state. -/

namespace Sys2Proof.Proofs

open Sys2Proof.Machine Sys2Proof.Safety Sys2Proof.Claims

/-- Settles O8: an illegal word raises ILLEGAL_COMMAND whichever check refuses it, and a legal one decodes to a well-formed
command, whose checks then go by its mnemonic. -/
theorem stepFollowsTheOrderOfChecks : Obligations.StepFollowsTheOrderOfChecks := by
  refine fun s w rest hin => ⟨step_illegalWord hin, fun hlegal => ?_⟩
  obtain ⟨i, hd, wf⟩ := Laws.not_illegalWord_iff.1 hlegal
  exact ⟨i, hd, (step_word_ok hin hd).trans (exec_eq_checkedState (s := s.setInput rest) wf)⟩

/-- Settles O9: a well-formed command ends where R197's checks send it, which is its cell of the table. -/
theorem commandsFollowTheLegalityTable : Obligations.CommandsFollowTheLegalityTable := by
  refine ⟨fun i s wf => ?_, fun s w rest hin hill => ⟨fun hne => ?_, fun herr => ?_⟩⟩
  · rw [exec_eq_checkedState wf, verdictState_legality]
  · rw [step_illegalWord hin hill, if_neg hne]
    rfl
  · rw [step_illegalWord hin hill, if_pos herr]
    rfl

/-- Settles O11: a step enters ERROR only by `raise` or by an effect that is one: every other effect keeps STATE, or ends in
ACTIVE or DONE. -/
theorem anErrorChangesOnlyStateAndCode : Obligations.AnErrorChangesOnlyStateAndCode := by
  refine ⟨fun s e => ⟨fun hne => State.raise_eq_raised hne e, fun herr => State.raise_of_error herr e⟩,
    fun s t w rest hin h hne herr => ?_, fun s t h hact => ?_⟩
  · rcases step_word_cases hin h with ⟨e, rfl⟩ | rfl | ⟨i, -, wf, -, rfl⟩
    · rw [State.raise_eq_raised (s := s.setInput rest) hne]
      rfl
    · exact absurd herr hne
    · rcases effectOf_state_cases (s.setInput rest) wf with hkeep | ⟨e, hraised⟩ | ⟨-, -, hbegin⟩ | ⟨-, hdone⟩
      · exact absurd (hkeep.symm.trans herr) hne
      · rw [hraised]
        rfl
      · simp [hbegin] at herr
      · simp [hdone] at herr
  · rw [eq_beginSession_of_start h hact]
    exact ⟨rfl, rfl, rfl⟩

/-- Settles O13: in ERROR `raise` has no effect, and of the commands that execute there only START sets
ERR_CODE. -/
theorem errorStateKeepsTheFirstCode : Obligations.ErrorStateKeepsTheFirstCode := by
  intro s herr
  have hne : s.state ≠ .active := by simp [herr]
  refine ⟨State.raise_of_error herr, fun b => exec_of_needsSession_error rfl herr,
    exec_of_needsSession_error rfl herr, ?_, ?_, fun i wf => ?_, fun w rest hin hill => ?_,
    fun csr value wf => exec_of_barred_of_ne wf hne rfl,
    fun csr wf => exec_rdcsr ((Laws.rdcsr_wellFormed_iff s.params csr).1 wf) s,
    fun index sym wf => exec_of_barred_of_ne wf hne rfl,
    fun i t => eq_start_of_errCode_ne herr, startEffect s, exec_start hne, ?_⟩
  · rw [exec_rderr, State.raise_of_error herr]
  · rw [exec_wrerr, State.raise_of_error herr]
  · rw [exec_of_fault wf, if_pos herr]
  · rw [step_illegalWord hin hill, if_pos herr]
    rfl
  · cases hv : s.configValid
    · rw [startEffect_of_invalid hv]
      rfl
    · rw [startEffect_of_valid hv]
      rfl

/-- Settles O14: of the effects, only a session's start leaves ERROR, since END executes in ACTIVE alone. -/
theorem onlyAValidStartOrResetLeavesError : Obligations.OnlyAValidStartOrResetLeavesError := by
  intro s t h herr hne
  rcases hin : s.input with _ | ⟨w | _, rest⟩
  · rw [step_nil hin] at h
    cases h
    exact absurd herr hne
  · rcases step_word_cases hin h with ⟨e, rfl⟩ | rfl | ⟨i, hd, wf, ha, rfl⟩
    · exact absurd (State.raise_state _ e) hne
    · exact absurd herr hne
    · rcases effectOf_state_cases (s.setInput rest) wf with hkeep | ⟨e, hraised⟩ | ⟨rfl, hv, hbegin⟩ | ⟨rfl, -⟩
      · exact absurd (hkeep.trans herr) hne
      · exact absurd (congrArg State.state hraised) hne
      · exact .inl ⟨w, rest, rfl, hd, hv, hbegin⟩
      · have hact : s.state = .active := active_of_executes ha rfl
        simp [herr] at hact
  · rw [step_rst hin] at h
    cases h
    exact .inr ⟨rest, rfl, rfl⟩

end Sys2Proof.Proofs

/-! SUPPORT. A word and the command it decodes to, as numbers: the fields `decode` reads determine the word, and the rows of
the match and mask table are the words with those fields. -/

namespace Sys2Proof.Laws

open Sys2Proof.Claims

/-- A word's fields read as a command's exactly when it is the command's word (30_encoding.md R81, R89, R94). -/
theorem reads_iff_encode_eq (w : Word) (i : Instr) : Reads w i ↔ encode i = w := by
  have hw : w.toNat < 2 ^ 32 := w.isLt
  have hzero : ∀ n, (0 : BitVec n).toNat = 0 := fun _ => rfl
  rw [← BitVec.toNat_inj, encode_toNat]
  cases i with
  | wrcsr csr value =>
    have hvalue : value.toNat < 2 ^ 24 := value.isLt
    simp only [Reads, ← BitVec.toNat_inj, bits_toNat]
    omega
  | wralpha index sym =>
    have hindex : index.toNat < 2 ^ 8 := index.isLt
    have hsym : sym.toNat < 2 ^ 8 := sym.isLt
    simp only [Reads, ← BitVec.toNat_inj, bits_toNat, hzero]
    omega
  | push b =>
    have hb : b.toNat < 2 ^ 8 := b.isLt
    simp only [Reads, ← BitVec.toNat_inj, bits_toNat, hzero]
    omega
  | rdcsr | start | endStream | rderr | wrerr =>
    simp only [Reads, ← BitVec.toNat_inj, bits_toNat, hzero]
    omega

/-- Decoding inverts encoding, both ways (30_encoding.md R89, R94). -/
theorem decode_eq_ok_iff_encode_eq (w : Word) (i : Instr) : decode w = .ok i ↔ encode i = w :=
  (decode_eq_ok_iff w i).trans (reads_iff_encode_eq w i)

theorem decode_encode (i : Instr) : decode (encode i) = .ok i := (decode_eq_ok_iff_encode_eq _ i).2 rfl

/-! ### The match and mask table (30_encoding.md R82) -/

/-- A field that a mask keeps whole is the match value's. -/
theorem bits_of_masked {w mask m : Word} {lo len : Nat} (h : w &&& mask = m)
    (hmask : bits mask lo len = BitVec.allOnes len) : bits w lo len = bits m lo len := by
  rw [bits] at hmask ⊢
  rw [← h, bits, BitVec.extractLsb'_and, hmask, BitVec.and_allOnes]

/-- Every command's word matches its row. -/
theorem encode_and_rowMask (i : Instr) : encode i &&& RowMatch.rowMask i = RowMatch.rowMatch i := by
  cases i with
  | wrcsr csr value => exact RowMatch.wrcsr csr value
  | rdcsr csr => exact RowMatch.rdcsr csr
  | wralpha index sym => exact RowMatch.wralpha index sym
  | push b => exact RowMatch.push b
  | start | endStream | rderr | wrerr => rfl

/-- A row is its mnemonic's. -/
theorem row_of_mnemonic {row : String × Word × Word} (hrow : row ∈ opcodeTable) {i : Instr}
    (hi : mnemonic i = row.1) : row = (mnemonic i, RowMatch.rowMatch i, RowMatch.rowMask i) := by
  revert row
  cases i <;> simp [opcodeTable, mnemonic, RowMatch.rowMatch, RowMatch.rowMask]

/-- A word that matches a row decodes to a command of that row: the mask keeps the opcode and the "zero" field. -/
theorem decode_of_row {row : String × Word × Word} (hrow : row ∈ opcodeTable) {w : Word}
    (h : w &&& row.2.2 = row.2.1) : ∃ i, decode w = .ok i ∧ mnemonic i = row.1 := by
  simp only [decode_eq_ok_iff]
  simp only [opcodeTable, List.mem_cons, List.not_mem_nil, or_false] at hrow
  rcases hrow with rfl | rfl | rfl | rfl | rfl | rfl | rfl | rfl <;>
    have hop := congrArg BitVec.toNat (bits_of_masked (lo := 28) (len := 4) h rfl)
  · exact ⟨.wrcsr _ _, ⟨hop, rfl, rfl⟩, rfl⟩
  · exact ⟨.rdcsr _, ⟨hop, bits_of_masked h rfl, rfl⟩, rfl⟩
  · exact ⟨.wralpha _ _, ⟨hop, bits_of_masked h rfl, rfl, rfl⟩, rfl⟩
  · exact ⟨.start, ⟨hop, bits_of_masked h rfl⟩, rfl⟩
  · exact ⟨.push _, ⟨hop, bits_of_masked h rfl, rfl⟩, rfl⟩
  · exact ⟨.endStream, ⟨hop, bits_of_masked h rfl⟩, rfl⟩
  · exact ⟨.rderr, ⟨hop, bits_of_masked h rfl⟩, rfl⟩
  · exact ⟨.wrerr, ⟨hop, bits_of_masked h rfl⟩, rfl⟩

end Sys2Proof.Laws

/-! The statements of 30_encoding.md: encoding, decoding and the opcode table. -/

namespace Sys2Proof.Proofs

open Sys2Proof.Machine Sys2Proof.Safety Sys2Proof.Claims

/-- Settles O1: the fields of a command's word read as the command. -/
theorem decodingAnEncodedCommandReturnsIt : Obligations.DecodingAnEncodedCommandReturnsIt := Laws.decode_encode

/-- Settles O2: the fields a command is read from make up the whole word. -/
theorem encodingADecodedWordReturnsIt : Obligations.EncodingADecodedWordReturnsIt :=
  fun w i => (Laws.decode_eq_ok_iff_encode_eq w i).1

/-- Settles O3: a match fixes the fields that `decode` tests, and a decoded word is its command's, which matches. -/
theorem tableRowsMatchExactlyTheirCommands : Obligations.TableRowsMatchExactlyTheirCommands := by
  refine fun row hrow w => ⟨Laws.decode_of_row hrow, ?_⟩
  rintro ⟨i, hd, hm⟩
  obtain rfl := (Laws.decode_eq_ok_iff_encode_eq w i).1 hd
  rw [Laws.row_of_mnemonic hrow hm]
  exact Laws.encode_and_rowMask i

/-- Settles O4: ten words, computed. -/
theorem writtenOutWordsDecode : Obligations.WrittenOutWordsDecode := by
  unfold Obligations.WrittenOutWordsDecode
  decide

end Sys2Proof.Proofs

/-! SUPPORT. What a command can do, in three outcomes; what its effect does to STATE and to OUT; and the opcode of a word
that decodes. -/

namespace Sys2Proof.Machine

open Sys2Proof.Claims

/-! ### The outcomes of a command -/

/-- Only a command that a session bars or needs can be out of sequence (60_exceptions.md R197). -/
theorem barred_or_needs_of_outOfSequence {p : Params} {i : Instr} {st : SessionState}
    (h : admission p i st = .outOfSequence) : barredInActive i = true ∨ needsSession i = true := by
  by_cases wf : i.WellFormed p
  · rw [admission_of_wellFormed wf] at h
    split_ifs at h with _ hbarred hneeds
    · exact .inl hbarred.2
    · exact .inr hneeds.2
  · rw [admission_of_fault wf] at h
    cases h

/-- The error a command raises before its effect, by what refused it (60_exceptions.md R197). -/
def Refused (i : Instr) (e : ErrCode) : Prop :=
  e = .illegalCommand ∨ e = .sequenceError ∧ (barredInActive i = true ∨ needsSession i = true)

theorem Refused.ne_none {i : Instr} {e : ErrCode} (h : Refused i e) : e ≠ .none := by
  rcases h with rfl | ⟨rfl, -⟩ <;> decide

/-- A command changes nothing, or it is refused outside ERROR, or it executes. -/
theorem exec_outcomes {i : Instr} {s t : State} (h : exec i s = .next t) :
    t = s ∨ (s.state ≠ .error ∧ ∃ e, Refused i e ∧ t = raised s e) ∨
    (i.WellFormed s.params ∧ admission s.params i s.state = .executes ∧ t = effectOf i s) := by
  have hraise : ∀ e, Refused i e → s.raise e = s ∨ s.state ≠ .error ∧ ∃ e', Refused i e' ∧ s.raise e = raised s e' := by
    intro e he
    by_cases herr : s.state = .error
    · exact .inl (State.raise_of_error herr e)
    · exact .inr ⟨herr, e, he, State.raise_eq_raised herr e⟩
  rw [exec_eq_perform] at h
  rcases perform_cases i s (effectOf i) with ⟨-, h'⟩ | ⟨-, h'⟩ | ⟨ha, h'⟩ | ⟨ha, h'⟩ <;> rw [h'] at h <;> cases h
  · exact (hraise _ (.inl rfl)).imp_right .inl
  · exact .inl rfl
  · exact (hraise _ (.inr ⟨rfl, barred_or_needs_of_outOfSequence ha⟩)).imp_right .inl
  · exact .inr (.inr ⟨wellFormed_of_executes ha, ha, rfl⟩)

/-- What a step on a word does: nothing, or an error outside ERROR by a word that does not decode or a command that is
refused, or the effect of a command that executes. -/
theorem step_word_outcomes {s t : State} {w : Word} {rest : List Input} (hin : s.input = .word w :: rest)
    (h : step s = .next t) :
    t = s.setInput rest ∨
    (s.state ≠ .error ∧ ∃ e, t = raised (s.setInput rest) e ∧
      (e = .illegalCommand ∨ ∃ i, decode w = .ok i ∧ Refused i e)) ∨
    ∃ i, decode w = .ok i ∧ i.WellFormed s.params ∧ admission s.params i s.state = .executes ∧
      t = effectOf i (s.setInput rest) := by
  rcases hd : decode w with r | i
  · have hill : illegalWord s.params w := Laws.illegalWord_of_decode_error hd
    rw [step_illegalWord hin hill] at h
    cases h
    by_cases herr : s.state = .error
    · exact .inl (if_pos herr)
    · exact .inr (.inl ⟨herr, _, if_neg herr, .inl rfl⟩)
  · rw [step_word_ok hin hd] at h
    rcases exec_outcomes h with rfl | ⟨hne, e, he, rfl⟩ | ⟨wf, ha, rfl⟩
    · exact .inl rfl
    · exact .inr (.inl ⟨hne, e, rfl, .inr ⟨i, rfl, he⟩⟩)
    · exact .inr (.inr ⟨i, rfl, wf, ha, rfl⟩)

theorem step_total (s : State) : ∃ t, step s = .next t := by
  rcases hin : s.input with _ | ⟨w | _, rest⟩
  · exact ⟨s, step_nil hin⟩
  · rcases hd : decode w with r | i
    · exact ⟨_, (step_word hin).trans (runWord_error hd _)⟩
    · rw [step_word_ok hin hd]
      exact exec_total i _
  · exact ⟨_, step_rst hin⟩

/-! ### STATE, OUT and the parameters under a command's effect -/

/-- A command's effect keeps STATE but for START, END and the two reports, each of which raises its own code
(10_state.md R22, 60_exceptions.md R191). -/
theorem effectOf_status {i : Instr} (s : State) (wf : i.WellFormed s.params) :
    (effectOf i s).state = s.state ∨
    (i = .start ∧ (effectOf i s = s.beginSession ∨ effectOf i s = raised s .configError)) ∨
    (i = .endStream ∧ (effectOf i s).state = .done) ∨
    (s.state ≠ .error ∧ (i = .rderr ∧ effectOf i s = raised s .ioErrorSource ∨
      i = .wrerr ∧ effectOf i s = raised s .ioErrorSink)) := by
  cases i with
  | wrcsr csr value => rcases wrcsrEffect_eq csr value s with h | ⟨c, h⟩ <;> simp [effectOf, h]
  | rdcsr csr =>
    obtain ⟨v, h⟩ := rdcsrEffect_of_lt ((Laws.rdcsr_wellFormed_iff s.params csr).1 wf) s
    simp [effectOf, h]
  | wralpha index sym => exact .inl rfl
  | start =>
    refine .inr (.inl ⟨rfl, ?_⟩)
    cases hv : s.configValid
    · exact .inr (startEffect_of_invalid hv)
    · exact .inl (startEffect_of_valid hv)
  | push b =>
    obtain ⟨o, c, a, n, -, h⟩ := pushEffect_shape b s
    simp [effectOf, h]
  | endStream =>
    obtain ⟨o, c, a, n, -, h⟩ := endEffect_shape s
    simp [effectOf, h]
  | rderr | wrerr =>
    by_cases herr : s.state = .error
    · exact .inl (congrArg State.state (State.raise_of_error herr _))
    · exact .inr (.inr (.inr ⟨herr, by simp [effectOf, State.raise_eq_raised herr]⟩))

/-- No command's effect touches the build's parameters, the inputs still to come, or the count of resets. -/
theorem effectOf_environment (i : Instr) (s : State) :
    (effectOf i s).params = s.params ∧ (effectOf i s).input = s.input ∧ (effectOf i s).resets = s.resets := by
  cases i with
  | wrcsr csr value => rcases wrcsrEffect_eq csr value s with h | ⟨c, h⟩ <;> simp [effectOf, h]
  | rdcsr csr =>
    rcases hc : Csr.ofNumber csr with _ | c <;> simp [effectOf, rdcsrEffect, hc]
  | wralpha index sym => exact ⟨rfl, rfl, rfl⟩
  | start =>
    cases hv : s.configValid
    · rw [effectOf, startEffect_of_invalid hv]
      exact ⟨rfl, rfl, rfl⟩
    · rw [effectOf, startEffect_of_valid hv]
      exact ⟨rfl, rfl, rfl⟩
  | push b =>
    obtain ⟨o, c, a, n, -, h⟩ := pushEffect_shape b s
    simp [effectOf, h]
  | endStream =>
    obtain ⟨o, c, a, n, -, h⟩ := endEffect_shape s
    simp [effectOf, h]
  | rderr | wrerr => simp [effectOf]

/-- No command touches the build's parameters, the inputs still to come, or the count of resets. -/
theorem exec_environment {i : Instr} {s t : State} (h : exec i s = .next t) :
    t.params = s.params ∧ t.input = s.input ∧ t.resets = s.resets := by
  rcases exec_outcomes h with rfl | ⟨-, e, -, rfl⟩ | ⟨-, -, rfl⟩
  · exact ⟨rfl, rfl, rfl⟩
  · exact ⟨rfl, rfl, rfl⟩
  · exact effectOf_environment i s

/-- OUT only grows (10_state.md R46). -/
theorem exec_out_prefix {i : Instr} {s t : State} (h : exec i s = .next t) : s.out <+: t.out := by
  rcases exec_outcomes h with rfl | ⟨-, e, -, rfl⟩ | ⟨wf, -, rfl⟩
  · exact List.prefix_rfl
  · exact List.prefix_rfl
  · cases hn : needsSession i
    · rw [(effectOf_frame s wf).out hn]
    · obtain ⟨-, o, hout, -⟩ := effectOf_emits hn s
      rw [hout]
      exact List.prefix_append _ _

/-- In ERROR no command but START emits or leaves ERROR (60_exceptions.md R198). -/
theorem exec_in_error {i : Instr} {s t : State} (herr : s.state = .error) (hi : i ≠ .start) (h : exec i s = .next t) :
    t.out = s.out ∧ t.state = .error := by
  rcases exec_outcomes h with rfl | ⟨hne, -⟩ | ⟨wf, ha, rfl⟩
  · exact ⟨rfl, herr⟩
  · exact absurd herr hne
  · have hn : needsSession i = false := Bool.eq_false_iff.2 fun hn => by
      have hact := active_of_executes ha hn
      simp [herr] at hact
    refine ⟨(effectOf_frame s wf).out hn, ?_⟩
    rcases effectOf_status s wf with hkeep | ⟨hstart, -⟩ | ⟨rfl, -⟩ | ⟨hne, -⟩
    · exact hkeep.trans herr
    · exact absurd hstart hi
    · cases hn
    · exact absurd herr hne

/-! ### The codes of an opcode (60_exceptions.md R191) -/

/-- The opcode of a command's word (30_encoding.md R82). -/
def opcodeOf : Instr → Nat
  | .wrcsr _ _ => 1
  | .rdcsr _ => 2
  | .wralpha _ _ => 3
  | .start => 4
  | .push _ => 5
  | .endStream => 6
  | .rderr => 7
  | .wrerr => 8

theorem opc_of_decode {w : Word} {i : Instr} (h : decode w = .ok i) : opc w = opcodeOf i := by
  have reads := (Laws.decode_eq_ok_iff w i).1 h
  rw [Laws.opc_eq_bits]
  cases i <;> exact reads.1

theorem illegalCommand_mem_codesOf (n : Nat) : .illegalCommand ∈ codesOf n := by
  unfold codesOf
  split <;> simp

theorem Refused.mem_codesOf {i : Instr} {e : ErrCode} (h : Refused i e) : e ∈ codesOf (opcodeOf i) := by
  rcases h with rfl | ⟨rfl, hseq⟩
  · exact illegalCommand_mem_codesOf _
  · cases i <;> simp_all [barredInActive, needsSession, opcodeOf, codesOf]

/-- A command raises its code from a state outside ERROR, so its word does. -/
theorem raised_by_word {i : Instr} {s : State} {e : ErrCode} (hne : s.state ≠ .error)
    (h : exec i (s.setInput []) = .next (raised (s.setInput []) e)) :
    ∃ (s t : State) (w : Word) (rest : List Input), s.input = .word w :: rest ∧ opc w = opcodeOf i ∧
      step s = .next t ∧ s.state ≠ .error ∧ t.state = .error ∧ t.errCode = e :=
  have hd := Laws.decode_encode i
  ⟨s.setInput [.word (encode i)], _, encode i, [], rfl, opc_of_decode hd, (step_word_ok rfl hd).trans h, hne, rfl, rfl⟩

/-- The word of opcode `n` with every other bit 1, which no opcode admits. -/
def onesWord (n : Nat) : Word := BitVec.ofNat 32 (n * 2 ^ 28 + (2 ^ 28 - 1))

theorem opc_onesWord {n : Nat} (h : n < 16) : opc (onesWord n) = n := by
  rw [opc, onesWord, BitVec.toNat_ofNat]
  omega

theorem illegalWord_onesWord (p : Params) {n : Nat} (h : n < 16) : illegalWord p (onesWord n) := by
  interval_cases n <;> simp [illegalWord, opc, field, onesWord]

/-- Every other listed code is one of the opcode's command, from a state right after reset or one with a session open. -/
theorem exists_command_raising {n : Nat} {e : ErrCode} (he : e ∈ codesOf n) (hne : e ≠ .illegalCommand) :
    ∃ (i : Instr) (s : State), opcodeOf i = n ∧ s.state ≠ .error ∧
      exec i (s.setInput []) = .next (raised (s.setInput []) e) := by
  have barred : ∀ i : Instr, i.WellFormed .default → barredInActive i = true →
      ∃ s : State, s.state ≠ .error ∧ exec i (s.setInput []) = .next (raised (s.setInput []) .sequenceError) :=
    fun i wf hb => ⟨{ State.reset with state := .active }, by decide, exec_of_barred wf rfl hb⟩
  unfold codesOf at he
  split at he <;> simp [hne] at he
  case h_1 => subst he; exact ⟨.wrcsr 0 0, by simpa [opcodeOf] using barred _ (by decide) rfl⟩
  case h_2 => subst he; exact ⟨.wralpha 0 0, by simpa [opcodeOf] using barred _ (by decide) rfl⟩
  case h_3 => subst he; exact ⟨.push 0, State.reset, rfl, by decide, exec_of_needsSession_outside rfl (.inl rfl)⟩
  case h_4 => subst he; exact ⟨.endStream, State.reset, rfl, by decide, exec_of_needsSession_outside rfl (.inl rfl)⟩
  case h_6 =>
    rcases he with rfl | rfl
    · exact ⟨.start, State.reset, rfl, by decide,
        (exec_start (by decide)).trans (congrArg _ (startEffect_of_invalid (by decide)))⟩
    · exact ⟨.start, by simpa [opcodeOf] using barred _ (by decide) rfl⟩
  case h_7 => subst he; exact ⟨.rderr, State.reset, rfl, by decide, exec_rderr _⟩
  case h_8 => subst he; exact ⟨.wrerr, State.reset, rfl, by decide, exec_wrerr _⟩

end Sys2Proof.Machine

/-! SUPPORT. Runs: a step of the machine, and commands one after the other. -/

namespace Sys2Proof.Machine

/-- A run of one step more. -/
theorem core_run_succ {s u : State} (h : step s = .next u) (n : Nat) :
    Sys2Proof.core.run (n + 1) s = Sys2Proof.core.run n u := by
  have hstep : Sys2Proof.core.step s = .next u := h
  simp only [Host.Core.run, hstep]

/-- What every step keeps holds after every run. -/
theorem core_run_keeps {P : State → Prop} (hstep : ∀ s t, P s → step s = .next t → P t) {n : Nat} {s t : State}
    (hs : P s) (h : Sys2Proof.core.run n s = .next t) : P t := by
  induction n generalizing s with
  | zero => cases h; exact hs
  | succ n ih =>
    obtain ⟨u, hu⟩ := step_total s
    rw [core_run_succ hu] at h
    exact ih (hstep s u hs hu) h

end Sys2Proof.Machine

namespace Sys2Proof.Safety

open Sys2Proof.Machine

/-- What each of some commands keeps holds after all of them. -/
theorem execAll_keeps {P : State → Prop} {is : List Instr} (hexec : ∀ i ∈ is, ∀ s t, P s → exec i s = .next t → P t)
    {s t : State} (hs : P s) (h : execAll is s = .next t) : P t := by
  induction is generalizing s with
  | nil => cases h; exact hs
  | cons i is ih =>
    obtain ⟨u, hu⟩ := exec_total i s
    rw [execAll_cons hu] at h
    exact ih (fun j hj => hexec j (by simp [hj])) (hexec i (by simp) s u hs hu) h

/-- Stepping through encoded commands runs them in order: no command looks at the inputs behind it (20_memory.md R68). -/
theorem core_run_encoded {is : List Instr} {s t : State} {rest : List Input}
    (h : execAll is (s.setInput rest) = .next t) :
    Sys2Proof.core.run is.length (s.setInput (is.map (fun i => Input.word (encode i)) ++ rest)) = .next t := by
  induction is generalizing s with
  | nil => exact h
  | cons i is ih =>
    obtain ⟨u, hu⟩ := exec_total i (s.setInput rest)
    rw [execAll_cons hu] at h
    set later : List Input := is.map (fun i => Input.word (encode i)) ++ rest with hlater
    have hu' : exec i (s.setInput later) = .next (u.setInput later) := exec_setInput (s := s.setInput rest) later hu
    have hback : u.setInput rest = u := by
      obtain ⟨-, hin, -⟩ := exec_environment hu
      exact congrArg (fun r => { u with input := r }) hin.symm
    have hstep : step (s.setInput (Input.word (encode i) :: later)) = .next (u.setInput later) :=
      (step_word_ok rfl (Laws.decode_encode i)).trans hu'
    exact (core_run_succ hstep is.length).trans (ih (hback.symm ▸ h))

end Sys2Proof.Safety

/-! The statements of 60_exceptions.md, 10_state.md and 20_memory.md about one step and about runs. -/

namespace Sys2Proof.Proofs

open Sys2Proof.Machine Sys2Proof.Safety Sys2Proof.Claims

/-- Settles O7: the step's three inputs. -/
theorem stepRunsTheDecodedCommand : Obligations.StepRunsTheDecodedCommand :=
  ⟨fun _ _ _ _ hin hd => step_word_ok hin hd, fun _ _ hin => step_rst hin, fun _ hin => step_nil hin⟩

/-- Settles O10: a step is a wait, a reset, a `raise` or a command, and each answers a next state. -/
theorem everyStepAnswersANextState : Obligations.EveryStepAnswersANextState :=
  ⟨step_total, exec_total, symsPerChunk_le⟩

/-- Settles O12: a code raised before the effect is listed by the command's checks, one raised by an effect is START's or a
report's; and each is raised by its opcode's command, or by a word no opcode admits. -/
theorem commandsRaiseOnlyTheirCodes : Obligations.CommandsRaiseOnlyTheirCodes := by
  refine ⟨fun s t w rest hin h hne herr => ?_, fun n hn e he => ?_⟩
  · rcases step_word_outcomes hin h with rfl | ⟨-, e, rfl, rfl | ⟨i, hd, hrefused⟩⟩ | ⟨i, hd, wf, -, rfl⟩
    · exact absurd herr hne
    · exact illegalCommand_mem_codesOf _
    · rw [opc_of_decode hd]
      exact hrefused.mem_codesOf
    · rw [opc_of_decode hd]
      rcases effectOf_status (s.setInput rest) wf with
        hkeep | ⟨rfl, hbegin | hraised⟩ | ⟨rfl, hdone⟩ | ⟨-, ⟨rfl, hraised⟩ | ⟨rfl, hraised⟩⟩
      · exact absurd (hkeep.symm.trans herr) hne
      · simp [hbegin] at herr
      · simp [hraised, raised, opcodeOf, codesOf]
      · simp [hdone] at herr
      · simp [hraised, raised, opcodeOf, codesOf]
      · simp [hraised, raised, opcodeOf, codesOf]
  · by_cases hill : e = .illegalCommand
    · subst hill
      have hstep := step_illegalWord (s := State.reset.setInput [.word (onesWord n)]) rfl (illegalWord_onesWord _ hn)
      exact ⟨_, _, onesWord n, [], rfl, opc_onesWord hn, hstep, nofun, rfl, rfl⟩
    · obtain ⟨i, s, rfl, hne, h⟩ := exists_command_raising he hill
      exact raised_by_word hne h

/-- Settles O15: by the outcomes of a step, and what each effect does to STATE. -/
theorem stateChangesOnlyByFourTransitions : Obligations.StateChangesOnlyByFourTransitions := by
  intro s t h hne
  rcases hin : s.input with _ | ⟨w | _, rest⟩
  · rw [step_nil hin] at h
    cases h
    exact absurd rfl hne
  · refine .inl ⟨w, rest, rfl, ?_⟩
    rcases step_word_outcomes hin h with rfl | ⟨herr, e, rfl, he⟩ | ⟨i, hd, wf, ha, rfl⟩
    · exact absurd rfl hne
    · have hcode : e ≠ .none := by
        rcases he with rfl | ⟨i, -, hrefused⟩
        · decide
        · exact hrefused.ne_none
      exact .inr (.inr ⟨herr, e, hcode, rfl⟩)
    · rcases effectOf_status (s.setInput rest) wf with
        hkeep | ⟨rfl, hstart⟩ | ⟨rfl, hdone⟩ | ⟨herr, ⟨-, hraised⟩ | ⟨-, hraised⟩⟩
      · exact absurd hkeep hne
      · have hout : s.state ≠ .active := fun hact => by
          cases not_barred_of_executes (hact ▸ ha)
        refine .inl ⟨hd, hout, hstart.imp (fun hbegin => ?_) fun hraised => ?_⟩
        · rw [hbegin]; rfl
        · rw [hraised]; exact ⟨rfl, rfl⟩
      · exact .inr (.inl ⟨hd, active_of_executes ha rfl, hdone⟩)
      · exact .inr (.inr ⟨herr, _, by decide, hraised⟩)
      · exact .inr (.inr ⟨herr, _, by decide, hraised⟩)
  · rw [step_rst hin] at h
    cases h
    exact .inr ⟨rest, rfl, rfl⟩

/-- Settles O16: a report ends in ERROR, where no command but START emits or changes STATE. -/
theorem nothingIsEmittedAfterAnIOError : Obligations.NothingIsEmittedAfterAnIOError := by
  intro s t i is hi hno h
  obtain ⟨e, hexec⟩ : ∃ e, exec i s = .next (s.raise e) := by
    rcases hi with rfl | rfl
    · exact ⟨_, exec_rderr s⟩
    · exact ⟨_, exec_wrerr s⟩
  rw [execAll_cons hexec] at h
  refine execAll_keeps (P := fun u => u.out = s.out ∧ u.state = .error) (fun j hj u v hu hv => ?_) (by simp) h
  obtain ⟨hout, herr⟩ := hu
  exact (exec_in_error herr (hno j hj) hv).imp_left (·.trans hout)

/-- Settles O17: the outputs are STATE's, and a START that succeeds and a reset leave ACTIVE and IDLE. -/
theorem levelOutputsFollowState : Obligations.LevelOutputsFollowState := by
  refine ⟨fun s => ⟨beq_iff_eq, beq_iff_eq⟩, fun s t _ hact => ?_, fun s t rest hin h => ?_⟩
  · simp [State.errO, State.doneO, hact]
  · rw [step_rst hin] at h
    cases h
    exact ⟨rfl, rfl⟩

/-- Settles O46: every command only appends to OUT, so what begins OUT before a run begins it after. -/
theorem deliveredOutputStaysAPrefix : Obligations.DeliveredOutputStaysAPrefix := by
  intro s t is acked d hd h
  refine execAll_keeps (P := fun u => Delivered acked u d) (fun i _ u v hu hv => ?_) hd h
  obtain ⟨hprefix, hlen⟩ := hu
  exact ⟨hprefix.trans (exec_out_prefix hv), hlen⟩

/-- Settles O54: decoding inverts encoding, and no command looks at the inputs or changes them. -/
theorem steppingEncodedCommandsRunsThemInOrder : Obligations.SteppingEncodedCommandsRunsThemInOrder := by
  intro is s rest
  obtain ⟨t, ht⟩ := execAll_total is (s.setInput rest)
  have hinput : t.input = rest := by
    refine execAll_keeps (P := fun u => u.input = rest) (fun i _ u v hu hv => ?_) rfl ht
    obtain ⟨-, hin, -⟩ := exec_environment hv
    exact hin.trans hu
  exact ⟨t, ht, core_run_encoded ht, hinput⟩

/-- Settles O58: a wait, a reset, an error and a command keep the parameters. -/
theorem noStepChangesTheParameters : Obligations.NoStepChangesTheParameters := by
  intro s t h
  rcases step_inv h with ⟨-, rfl⟩ | ⟨rest, -, rfl⟩ | ⟨w, rest, r, -, -, rfl⟩ | ⟨w, rest, i, -, -, hexec⟩
  · rfl
  · rfl
  · simp
  · exact (exec_environment hexec).1

end Sys2Proof.Proofs

/-! SUPPORT. The invariant under each operation on the state, and so under each command and each step. -/

namespace Sys2Proof.Safety

open Sys2Proof.Machine Sys2Proof.Claims

/-! ### Outside a session -/

/-- A state that holds no configuration and a clear datapath, as reset leaves it (10_state.md R50). -/
theorem inv_of_cleared {s : State} (hstate : s.state = .idle) (hcode : s.errCode = .none) (hmode : s.mode = 0)
    (hwrap : s.wrap = 0) (halen : s.alen = 0) (halphabet : s.alphabet.length = s.params.alphaMax) (hacc : s.acc = 0)
    (hcount : s.byteCnt = 0) (hcol : s.col = 0) : Inv s where
  modeReserved := by rw [hmode]; rfl
  wrapReserved := by rw [hwrap]; rfl
  alenReserved := by rw [halen]; rfl
  alphabetSize := halphabet
  accWidth := by simp [hacc]
  colWidth := by simp [hcol]
  codeNone := by simp [hstate, hcode]
  config := by simp [hstate]
  count := by simp [hstate]
  column := by simp [hstate]
  noColumn := by simp [hstate]
  accBits := by simp [hstate]
  quiet := fun _ => ⟨hacc, hcount, hcol⟩

theorem inv_resetOf (p : Params) : Inv (State.resetOf p) :=
  inv_of_cleared rfl rfl rfl rfl rfl (alphabetAtReset_length p 0) rfl rfl rfl

theorem inv_assertReset (s : State) : Inv s.assertReset :=
  inv_of_cleared rfl rfl rfl rfl rfl (alphabetAtReset_length s.params _) rfl rfl rfl

variable {s : State}

theorem Inv.setInput (inv : Inv s) (l : List Input) : Inv (s.setInput l) := { inv with }

theorem Inv.respond (inv : Inv s) (v : Word) : Inv (s.respond v) := { inv with }

/-- In ERROR the invariant asks nothing of the datapath but its widths. -/
theorem Inv.raised (inv : Inv s) {e : ErrCode} (he : e ≠ .none) : Inv (raised s e) :=
  { inv with
    codeNone := by simp [Claims.raised, he]
    config := nofun
    count := nofun
    column := nofun
    noColumn := nofun
    accBits := nofun
    quiet := nofun }

/-- A register is written outside ACTIVE alone, with its reserved bits clear (40_config.md R102). -/
theorem Inv.writeCsr (inv : Inv s) (hne : s.state ≠ .active) {c : Csr} {value : BitVec 24}
    (hclear : reservedClear c value = true) : Inv (s.writeCsr c value) where
  modeReserved := by
    rw [State.writeCsr_mode]
    split
    next h => exact h ▸ hclear
    next => exact inv.modeReserved
  wrapReserved := by
    rw [State.writeCsr_wrap]
    split
    next h => exact h ▸ hclear
    next => exact inv.wrapReserved
  alenReserved := by
    rw [State.writeCsr_alen]
    split
    next h => exact h ▸ hclear
    next => exact inv.alenReserved
  alphabetSize := by simpa using inv.alphabetSize
  accWidth := by simpa using inv.accWidth
  colWidth := by simpa using inv.colWidth
  codeNone := by simpa using inv.codeNone
  config := by simp [hne]
  count := by simp [hne]
  column := by simp [hne]
  noColumn := by simp [hne]
  accBits := by simp [hne]
  quiet := by simpa using inv.quiet

theorem Inv.setAlphabet (inv : Inv s) (index : Nat) (sym : Byte) : Inv (s.setAlphabet index sym) :=
  { inv with alphabetSize := by simpa using inv.alphabetSize }

/-- A START whose check passes begins with no byte read and an empty line (40_config.md R118). -/
theorem Inv.beginSession (inv : Inv s) (hv : s.configValid = true) : Inv s.beginSession :=
  { inv with
    accWidth := by simp
    colWidth := by simp
    codeNone := by simp
    config := fun _ => hv
    count := fun _ => by
      obtain ⟨-, -, hchunk, -⟩ := State.configValid_arith hv
      exact hchunk
    column := fun _ he => by
      have hwidth := State.configValid_width hv he
      exact hwidth
    noColumn := fun _ _ => rfl
    accBits := by simp
    quiet := by simp }

/-! ### In a session -/

section Session

variable (inv : Inv s) (hact : s.state = .active)
include inv hact

/-- A byte inserted into a chunk it does not fill (41_datapath.md R132). -/
theorem Inv.accInsert (hlt : s.byteCnt.toNat + 1 < s.chunk) (b : Byte) : Inv (s.accInsert b) := by
  have hcount : (s.accInsert b).byteCnt.toNat = s.byteCnt.toNat + 1 := byteCnt_succ_toNat inv hact
  have hbits : ∀ i, (s.accInsert b).acc.getLsbD i = true →
      8 * (s.chunk - (s.accInsert b).byteCnt.toNat) ≤ i ∧ i < 8 * s.chunk := by
    intro i hbit
    rw [State.accInsert_acc_getLsbD (by omega) b (BitVec.lt_of_getLsbD hbit)] at hbit
    split at hbit
    · omega
    · have := inv.accBits hact i hbit
      omega
  obtain ⟨-, -, -, -, -, -, hroom, -⟩ := State.configValid_arith (inv.config hact)
  exact
    { inv with
      accWidth := Nat.lt_pow_two_of_testBit _ fun i hi => Bool.eq_false_iff.2 fun hbit => by
        have := hbits i hbit
        have : s.params.accBits ≤ i := hi
        omega
      count := fun _ => hcount.trans_lt hlt
      accBits := fun _ => hbits
      quiet := fun h => by simp [State.accInsert, hact] at h }

/-- The column after some symbols fits its line, and COL (41_datapath.md R149). -/
theorem Inv.columnAfter (n : Nat) :
    columnAfter s.wrapEn s.wrapWidth.toNat s.col.toNat n < 2 ^ (s.params.wrapBits : Nat) ∧
    (s.wrapEn = true → columnAfter s.wrapEn s.wrapWidth.toNat s.col.toNat n < s.wrapWidth.toNat) ∧
    (s.wrapEn = false → columnAfter s.wrapEn s.wrapWidth.toNat s.col.toNat n = 0) := by
  unfold Safety.columnAfter
  cases he : s.wrapEn
  · simp [inv.noColumn hact he]
  · have hlt : (s.col.toNat + n) % s.wrapWidth.toNat < s.wrapWidth.toNat :=
      Nat.mod_lt _ (Nat.zero_lt_of_lt (inv.column hact he))
    exact ⟨hlt.trans s.wrapWidth_lt, fun _ => hlt, nofun⟩

/-- A chunk emitted: an empty chunk, and the column it leaves (41_datapath.md R147). -/
theorem Inv.emitted (n : Nat) (o : List Byte) :
    Inv { s with
      out := o
      col := BitVec.ofNat 16 (Safety.columnAfter s.wrapEn s.wrapWidth.toNat s.col.toNat n)
      acc := 0
      byteCnt := 0 } := by
  obtain ⟨hwidth, hline, hnone⟩ := inv.columnAfter hact n
  have hcol : (BitVec.ofNat 16 (Safety.columnAfter s.wrapEn s.wrapWidth.toNat s.col.toNat n)).toNat =
      Safety.columnAfter s.wrapEn s.wrapWidth.toNat s.col.toNat n :=
    (BitVec.toNat_ofNat ..).trans (Nat.mod_eq_of_lt (columnAfter_lt (inv.column hact) n))
  exact
    { inv with
      accWidth := by simp
      colWidth := hcol.trans_lt hwidth
      count := fun _ => Nat.zero_lt_of_lt (inv.count hact)
      column := fun _ he => hcol.trans_lt (hline he)
      noColumn := fun _ he => BitVec.eq_of_toNat_eq (hcol.trans (hnone he))
      accBits := by simp
      quiet := fun h => by simp [hact] at h }

/-- PUSH in a session (42_stream.md R160, R161). -/
theorem Inv.pushEffect (b : Byte) : Inv (pushEffect b s) := by
  rcases Nat.lt_or_eq_of_le (inv.count hact) with hlt | hfull
  · rw [pushEffect_of_lt inv hact hlt]
    exact inv.accInsert hact hlt b
  · rw [pushEffect_of_eq inv hact hfull]
    exact inv.emitted hact _ _

/-- END in a session leaves DONE with a clear datapath (42_stream.md R167). -/
theorem Inv.endEffect : Inv (endEffect s) := by
  rw [endEffect_of_inv inv hact]
  exact
    { inv with
      accWidth := by simp
      colWidth := by simp
      codeNone := by simp [inv.codeNone, hact]
      config := nofun
      count := nofun
      column := nofun
      noColumn := nofun
      accBits := nofun
      quiet := fun _ => ⟨rfl, rfl, rfl⟩ }

end Session

/-! ### Every command and every step -/

/-- The effect of a command that executes keeps the invariant. -/
theorem Inv.effectOf (inv : Inv s) {i : Instr} (ha : admission s.params i s.state = .executes) :
    Inv (effectOf i s) := by
  have wf := wellFormed_of_executes ha
  have hbarred : barredInActive i = true → s.state ≠ .active := fun hb hact => by
    rw [not_barred_of_executes (hact ▸ ha)] at hb
    cases hb
  have hreport : ∀ {e : ErrCode}, e ≠ .none → Inv (s.raise e) := fun he => by
    rw [State.raise_eq_ite]
    split
    · exact inv
    · exact inv.raised he
  cases i with
  | wrcsr csr value =>
    have hne := hbarred rfl
    rcases (Laws.wrcsr_wellFormed_iff s.params csr value).1 wf with ⟨rfl, hclear⟩ | ⟨rfl, hclear⟩ | ⟨rfl, hclear⟩
    · exact inv.writeCsr (c := .mode) hne hclear
    · exact inv.writeCsr (c := .wrap) hne hclear
    · exact inv.writeCsr (c := .alen) hne hclear
  | rdcsr csr =>
    obtain ⟨v, h⟩ := rdcsrEffect_of_lt ((Laws.rdcsr_wellFormed_iff s.params csr).1 wf) s
    rw [Machine.effectOf, h]
    exact inv.respond v
  | wralpha index sym => exact inv.setAlphabet _ _
  | start =>
    rw [Machine.effectOf]
    cases hv : s.configValid
    · rw [startEffect_of_invalid hv]
      exact inv.raised (by decide)
    · rw [startEffect_of_valid hv]
      exact inv.beginSession hv
  | push b => exact inv.pushEffect (active_of_executes ha rfl) b
  | endStream => exact inv.endEffect (active_of_executes ha rfl)
  | rderr => exact hreport (by decide)
  | wrerr => exact hreport (by decide)

theorem Inv.exec (inv : Inv s) {i : Instr} {t : State} (h : exec i s = .next t) : Inv t := by
  rcases exec_outcomes h with rfl | ⟨-, e, he, rfl⟩ | ⟨-, ha, rfl⟩
  · exact inv
  · exact inv.raised he.ne_none
  · exact inv.effectOf ha

theorem Inv.step (inv : Inv s) {t : State} (h : step s = .next t) : Inv t := by
  rcases step_inv h with ⟨-, rfl⟩ | ⟨rest, -, rfl⟩ | ⟨w, rest, r, hin, hd, -⟩ | ⟨w, rest, i, -, -, hexec⟩
  · exact inv
  · exact inv_assertReset _
  · rw [step_illegalWord hin (Laws.illegalWord_of_decode_error hd)] at h
    cases h
    split
    · exact inv.setInput rest
    · exact (inv.setInput rest).raised (by decide)
  · exact (inv.setInput rest).exec hexec

end Sys2Proof.Safety

/-! The statements about the invariant. -/

namespace Sys2Proof.Proofs

open Sys2Proof.Machine Sys2Proof.Safety Sys2Proof.Claims

/-- Settles O19: reset leaves no configuration and a clear datapath. -/
theorem resetStateMeetsTheInvariant : Obligations.ResetStateMeetsTheInvariant := ⟨inv_resetOf _, inv_resetOf⟩

/-- Settles O20: a step waits, resets, raises an error or runs a command, and each operation keeps the invariant. -/
theorem everyStepKeepsTheInvariant : Obligations.EveryStepKeepsTheInvariant := fun _ _ inv h => inv.step h

/-- Settles O21: the invariant holds at reset and every step keeps it. -/
theorem invariantsHoldBetweenCommandSteps : Obligations.InvariantsHoldBetweenCommandSteps := by
  intro p inputs n t h
  have inv : Inv t := core_run_keeps (fun _ _ inv h => inv.step h) ((inv_resetOf p).setInput inputs) h
  exact ⟨inv.config, inv.count, inv.column, inv.codeNone.2⟩

/-- Settles O45: PUSH inside a chunk emits nothing, and END on a chunk boundary at most a newline. -/
theorem outputIsCommittedByWholeChunks : Obligations.OutputIsCommittedByWholeChunks := by
  intro s t w rest inv hin h hout
  rcases step_word_outcomes hin h with rfl | ⟨-, e, rfl, -⟩ | ⟨i, hd, wf, ha, rfl⟩
  · exact absurd rfl hout
  · exact absurd rfl hout
  · have inv' := inv.setInput rest
    cases hn : needsSession i
    · exact absurd ((effectOf_frame (s.setInput rest) wf).out hn) hout
    · have hact : s.state = .active := active_of_executes ha hn
      obtain ⟨rfl | ⟨b, rfl⟩, -⟩ := effectOf_emits hn (s.setInput rest)
      · refine .inr ⟨hd, ?_⟩
        rw [effectOf, endEffect_of_inv inv' hact] at hout ⊢
        by_cases hshort : 0 < s.byteCnt.toNat
        · exact .inl hshort
        · right
          simp only [State.setInput_byteCnt, hshort, if_false, List.append_nil] at hout ⊢
          split at hout
          next hopen => rw [if_pos hopen]; rfl
          next => simp at hout
      · refine .inl ⟨b, hd, (Nat.lt_or_eq_of_le (inv.count hact)).resolve_left fun hlt => hout ?_⟩
        rw [effectOf, pushEffect_of_lt inv' hact hlt]
        rfl

end Sys2Proof.Proofs

/-! SUPPORT. START in every state, and a report's outcome as a change of two registers. -/

namespace Sys2Proof.Machine

open Sys2Proof.Claims

/-- What START does: it begins a session or raises an error, and nothing else (40_config.md R115 to R118). -/
theorem exec_start_outcomes {s t : State} (h : exec .start s = .next t) : t = s.beginSession ∨ ∃ e, t = raised s e := by
  by_cases hact : s.state = .active
  · rw [exec_of_barred rfl hact rfl] at h
    cases h
    exact .inr ⟨_, rfl⟩
  · rw [exec_start hact] at h
    cases h
    cases hv : s.configValid
    · exact .inr ⟨_, startEffect_of_invalid hv⟩
    · exact .inl (startEffect_of_valid hv)

/-- What a command that needs a session does (60_exceptions.md R196). -/
theorem exec_needsSession_outcomes {i : Instr} {s t : State} (hn : needsSession i = true) (h : exec i s = .next t) :
    (s.state = .active ∧ t = effectOf i s) ∨
    ((s.state = .idle ∨ s.state = .done) ∧ t = raised s .sequenceError) ∨ (s.state = .error ∧ t = s) := by
  cases hs : s.state with
  | active =>
    rw [exec_of_needsSession_active hn hs] at h
    cases h
    exact .inl ⟨rfl, rfl⟩
  | error =>
    rw [exec_of_needsSession_error hn hs] at h
    cases h
    exact .inr (.inr ⟨rfl, rfl⟩)
  | idle =>
    rw [exec_of_needsSession_outside hn (.inl hs)] at h
    cases h
    exact .inr (.inl ⟨.inl rfl, rfl⟩)
  | done =>
    rw [exec_of_needsSession_outside hn (.inr hs)] at h
    cases h
    exact .inr (.inl ⟨.inr rfl, rfl⟩)

end Sys2Proof.Machine

/-! The frames of the commands. -/

namespace Sys2Proof.Proofs

open Sys2Proof.Machine Sys2Proof.Safety Sys2Proof.Claims

/-- Settles O47: each effect is a write of its own target, and every other outcome changes at most STATE and ERR_CODE. -/
theorem configurationCommandsChangeOnlyTheirTarget : Obligations.ConfigurationCommandsChangeOnlyTheirTarget := by
  refine ⟨fun csr value s t h => ?_, fun csr s t h => ?_, fun index sym s t h => ?_⟩
  · rcases exec_outcomes h with rfl | ⟨hne, e, -, rfl⟩ | ⟨wf, -, rfl⟩
    · simp
    · simp [raised, hne]
    · rcases (Laws.wrcsr_wellFormed_iff s.params csr value).1 wf with ⟨rfl, -⟩ | ⟨rfl, -⟩ | ⟨rfl, -⟩ <;>
        simp [effectOf, wrcsrEffect, Csr.ofNumber]
  · by_cases hlt : csr.toNat < 7
    · obtain ⟨c, hc⟩ := exists_csr_of_lt hlt
      rw [exec_rdcsr_eq_respond hc] at h
      cases h
      simp
    · rw [exec_of_fault fun wf => hlt ((Laws.rdcsr_wellFormed_iff s.params csr).1 wf)] at h
      cases h
      split
      next => simp
      next hne => simp [raised, hne, not_lt.1 hlt]
  · rcases exec_outcomes h with rfl | ⟨hne, e, -, rfl⟩ | ⟨-, -, rfl⟩
    · simp
    · simp [raised, hne]
    · have hother : ∀ j : Nat, j ≠ index.toNat → (s.alphabet.set index.toNat sym)[j]? = s.alphabet[j]? :=
        fun j hj => List.getElem?_set_ne hj.symm
      simpa [effectOf] using hother

/-- Settles O48: START begins a session or raises an error, and a report is a `raise`. -/
theorem sessionAndReportCommandsChangeOnlyTheirRegisters :
    Obligations.SessionAndReportCommandsChangeOnlyTheirRegisters := by
  refine ⟨fun s t h => ?_, fun i s t hi h => ?_⟩
  · rcases exec_start_outcomes h with rfl | ⟨e, rfl⟩ <;> simp [raised]
  · obtain ⟨e, rfl⟩ : ∃ e, t = s.raise e := by
      rcases hi with rfl | rfl
      · rw [exec_rderr] at h
        cases h
        exact ⟨_, rfl⟩
      · rw [exec_wrerr] at h
        cases h
        exact ⟨_, rfl⟩
    rw [State.raise_eq_ite]
    split
    next herr => exact ⟨rfl, herr, fun _ => rfl⟩
    next hne => exact ⟨rfl, rfl, fun herr => absurd herr hne⟩

/-- Settles O49: in ACTIVE the shape of each effect, in IDLE and DONE one error, in ERROR nothing. -/
theorem streamCommandsChangeOnlyTheDatapathAndOut : Obligations.StreamCommandsChangeOnlyTheDatapathAndOut := by
  refine ⟨fun b s t h => ?_, fun s t h => ?_⟩
  · rcases exec_needsSession_outcomes rfl h with ⟨hact, rfl⟩ | ⟨hout, rfl⟩ | ⟨-, rfl⟩
    · obtain ⟨o, c, a, n, -, heffect⟩ := pushEffect_shape b s
      simp [effectOf, heffect, hact]
    · simp [raised, hout]
    · simp
  · rcases exec_needsSession_outcomes rfl h with ⟨hact, rfl⟩ | ⟨hout, rfl⟩ | ⟨herr, rfl⟩
    · obtain ⟨o, c, a, n, -, heffect⟩ := endEffect_shape s
      simp [effectOf, heffect, hact]
    · rcases hout with hs | hs <;> simp [raised, hs]
    · simp [herr]

end Sys2Proof.Proofs

/-! SUPPORT. The fields of the configuration registers as numbers. -/

namespace Sys2Proof.Machine

theorem State.bitWidth_eq (s : State) : s.bitWidth = s.mode.toNat % 16 := by
  rw [State.bitWidth, Laws.bits_toNat, pow_zero, Nat.div_one]
  rfl

theorem State.alphaLen_eq (s : State) : s.alphaLen = s.alen.toNat % 512 := by
  rw [State.alphaLen, Laws.bits_toNat, pow_zero, Nat.div_one]
  rfl

/-- A one-bit field is a flag. -/
theorem bit_beq_one_iff (v : BitVec 24) (lo : Nat) : (bits v lo 1 == 1) = true ↔ v.toNat / 2 ^ lo % 2 = 1 := by
  rw [beq_iff_eq, ← BitVec.toNat_inj, Laws.bits_toNat]
  rfl

theorem State.padEn_iff (s : State) : s.padEn = true ↔ s.mode.toNat / 2 ^ 8 % 2 = 1 := bit_beq_one_iff s.mode 8

theorem State.wrapEn_iff (s : State) : s.wrapEn = true ↔ s.wrap.toNat / 2 ^ 16 % 2 = 1 := bit_beq_one_iff s.wrap 16

/-- START's check with each field as a number (40_config.md R116). -/
theorem State.configValid_iff (s : State) :
    s.configValid = true ↔
      s.bitWidth ∈ s.params.supportedK ∧ s.alen.toNat % 512 = 2 ^ s.bitWidth ∧
      (chunkBytes s.bitWidth = 1 ∨ s.mode.toNat / 2 ^ 8 % 2 = 1) ∧
      (s.wrap.toNat / 2 ^ 16 % 2 = 0 ∨ 1 ≤ s.wrap.toNat % 2 ^ (s.params.wrapBits : Nat)) := by
  have hoff : s.wrapEn = false ↔ s.wrap.toNat / 2 ^ 16 % 2 = 0 := by
    rw [← Bool.not_eq_true, State.wrapEn_iff]
    omega
  simp only [State.configValid, Bool.and_eq_true, Bool.or_eq_true, List.contains_iff_mem, beq_iff_eq, Bool.not_eq_true',
    decide_eq_true_eq, and_assoc, State.padEn_iff, hoff, State.wrapWidth_toNat, State.chunk, State.alphaLen_eq]

end Sys2Proof.Machine

/-! The statements about the configuration check and the parameters. -/

namespace Sys2Proof.Proofs

open Sys2Proof.Machine Sys2Proof.Safety Sys2Proof.Claims

/-- Settles O26: the check's conjuncts, each read off its register as a number. -/
theorem configValidIsTheFourConditions : Obligations.ConfigValidIsTheFourConditions := by
  intro s k
  have hk : s.bitWidth = k := s.bitWidth_eq
  rw [State.configValid_iff, hk]

end Sys2Proof.Proofs

namespace Sys2Proof.Laws.Config

/-- The largest of some numbers is one of them. -/
theorem largest_mem {ns : List Nat} (h : ns ≠ []) : largest ns ∈ ns := by
  induction ns with
  | nil => exact absurd rfl h
  | cons n ns ih =>
    rcases eq_or_ne ns [] with rfl | hne
    · simp [largest]
    · have hmax : largest (n :: ns) = max n (largest ns) := rfl
      rcases max_choice n (largest ns) with hn | hns
      · rw [hmax, hn]
        exact List.mem_cons_self
      · rw [hmax, hns]
        exact List.mem_cons_of_mem n (ih hne)

end Sys2Proof.Laws.Config

namespace Sys2Proof.Proofs

open Sys2Proof.Machine Sys2Proof.Safety Sys2Proof.Claims

/-- Settles O57: the maximum of a list bounds its members and is one of them. -/
theorem parametersFollowFromTheSupportedWidths : Obligations.ParametersFollowFromTheSupportedWidths := by
  obtain ⟨hcMax, haccBits, halphaMax⟩ := Laws.Config.default_derived
  refine ⟨fun p k hk => ?_, fun p hne => ⟨?_, ?_⟩,
    fun p => ⟨rfl, Laws.Config.accBits_le p, Laws.Config.alphaMax_le p⟩, fun ks hks => ?_,
    by decide, hcMax, haccBits, halphaMax, rfl, rfl⟩
  · obtain ⟨-, h1, h8⟩ := Laws.Config.mem_supportedK.1 hk
    exact ⟨h1, h8, Laws.Config.le_largest (List.mem_map_of_mem hk), Laws.Config.alphabet_fits hk⟩
  · obtain ⟨k, hk, hc⟩ := List.mem_map.1 (Laws.Config.largest_mem (mt List.map_eq_nil_iff.1 hne))
    exact ⟨k, hk, hc.symm⟩
  · exact ⟨_, Laws.Config.largest_mem hne, rfl⟩
  · refine ⟨{ Params.default with widths := ks }, List.filter_eq_self.2 fun k hk => ?_⟩
    simpa using hks k hk

end Sys2Proof.Proofs

/-! SUPPORT. The closed forms of the datapath: rounding up, bytes packed into ACC, the groups of a word, and the lines of
some symbols. -/

namespace Sys2Proof.Safety

open Sys2Proof.Machine Sys2Proof.Claims

/-! ### Rounding up (00_scope.md R9) -/

theorem ceilDiv_le_iff {a b c : Nat} (hb : 0 < b) : ceilDiv a b ≤ c ↔ a ≤ b * c := by
  rw [ceilDiv, ← Nat.ceilDiv_eq_add_pred_div]
  exact ceilDiv_le_iff_le_mul hb

theorem lt_ceilDiv_iff {a b j : Nat} (hb : 0 < b) : j < ceilDiv a b ↔ j * b < a := by
  rw [← not_le, ceilDiv_le_iff hb, not_le, Nat.mul_comm]

/-- Whole multiples come out of a rounding up. -/
theorem ceilDiv_mul_add {b : Nat} (hb : 0 < b) (q r : Nat) : ceilDiv (b * q + r) b = q + ceilDiv r b := by
  rw [ceilDiv, Nat.add_sub_assoc (by omega), Nat.add_assoc, Nat.mul_add_div hb, ← Nat.add_sub_assoc (by omega)]
  rfl

theorem ceilDiv_eq_one {b r : Nat} (hpos : 0 < r) (hle : r ≤ b) : ceilDiv r b = 1 :=
  have hb : 0 < b := hpos.trans_le hle
  le_antisymm ((ceilDiv_le_iff hb).2 (by omega)) ((lt_ceilDiv_iff hb).2 (by omega))

theorem ceilDiv_of_zero (b : Nat) : ceilDiv 0 b = 0 := by
  rw [ceilDiv, Nat.zero_add]
  rcases b.eq_zero_or_pos with rfl | hb
  · rfl
  · exact Nat.div_eq_of_lt (Nat.sub_lt hb one_pos)

/-! ### Bytes packed into one number (41_datapath.md R133) -/

theorem packBytes_concat (bs : List Byte) (b : Byte) : packBytes (bs ++ [b]) = 256 * packBytes bs + b.toNat := by
  simp [packBytes]

theorem packBytes_lt (bs : List Byte) : packBytes bs < 2 ^ (8 * bs.length) := by
  induction bs using List.reverseRecOn with
  | nil => decide
  | append_singleton bs b ih =>
    have hb : b.toNat < 2 ^ 8 := b.isLt
    rw [packBytes_concat, List.length_append, List.length_singleton, Nat.mul_succ, pow_add]
    omega

theorem packBytes_append (xs ys : List Byte) :
    packBytes (xs ++ ys) = packBytes xs * 2 ^ (8 * ys.length) + packBytes ys := by
  induction ys using List.reverseRecOn with
  | nil => simp [packBytes]
  | append_singleton ys b ih =>
    rw [← List.append_assoc, packBytes_concat, packBytes_concat, ih, List.length_append, List.length_singleton,
      Nat.mul_succ, pow_add]
    ring

/-- The packed bytes of a chunk of `c` bytes, each at its place (41_datapath.md R133). -/
theorem packBytes_mul_eq_sum {c : Nat} (bs : List Byte) (h : bs.length ≤ c) :
    packBytes bs * 2 ^ (8 * (c - bs.length)) =
      ∑ i ∈ Finset.range bs.length, (bs[i]?.getD 0).toNat * 2 ^ (8 * (c - 1 - i)) := by
  induction bs using List.reverseRecOn with
  | nil => simp [packBytes]
  | append_singleton bs b ih =>
    rw [List.length_append, List.length_singleton] at h ⊢
    have hplace : 8 * (c - bs.length) = 8 * (c - (bs.length + 1)) + 8 := by omega
    have hearlier : ∀ i ∈ Finset.range bs.length, ((bs ++ [b])[i]?.getD 0).toNat * 2 ^ (8 * (c - 1 - i)) =
        (bs[i]?.getD 0).toNat * 2 ^ (8 * (c - 1 - i)) := fun i hi => by
      rw [List.getElem?_append_left (Finset.mem_range.1 hi)]
    rw [Finset.sum_range_succ, Finset.sum_congr rfl hearlier, ← ih (by omega), hplace, pow_add, packBytes_concat,
      List.getElem?_concat_length, Option.getD_some, Nat.sub_sub, Nat.add_comm 1]
    ring

/-! ### The groups of a word (41_datapath.md R137) -/

/-- The first `m` groups of a number make up its bits above the rest. -/
theorem sum_groupAt {w k m v : Nat} (hv : v < 2 ^ w) (h : k * m ≤ w) :
    ∑ j ∈ Finset.range m, groupAt w k v j * 2 ^ (w - k * (j + 1)) = v / 2 ^ (w - k * m) * 2 ^ (w - k * m) := by
  induction m with
  | zero => simp [Nat.div_eq_of_lt hv]
  | succ m ih =>
    rw [Nat.mul_succ] at h
    have hsplit : w - k * m = w - k * (m + 1) + k := by rw [Nat.mul_succ]; omega
    rw [Finset.sum_range_succ, ih (by omega), groupAt, hsplit, pow_add, ← Nat.div_div_eq_div_mul, mul_comm (2 ^ _) (2 ^ k),
      ← mul_assoc, ← add_mul, Nat.div_add_mod']

/-! ### Lines of symbols (41_datapath.md R149) -/

/-- Some symbols and then some more. -/
theorem lines_add (nl : Byte) (en : Bool) (width col m n : Nat) (f : Nat → Byte) :
    lines nl en width col (m + n) f =
      lines nl en width col m f ++ lines nl en width (col + m) n fun i => f (m + i) := by
  simp only [lines, List.range_add, List.flatMap_append, List.flatMap_map, Nat.add_assoc]

/-- The last of some symbols. -/
theorem lines_succ_last (nl : Byte) (en : Bool) (width col n : Nat) (f : Nat → Byte) :
    lines nl en width col (n + 1) f =
      lines nl en width col n f ++ f n :: newlineAfter nl en width (col + n + 1) := by
  rw [lines_add, lines_succ, lines_zero, List.append_nil]
  rfl

theorem length_newlineAfter (nl : Byte) (width p : Nat) :
    (newlineAfter nl true width p).length = if width ∣ p then 1 else 0 := by
  simp only [newlineAfter, true_and, ← Nat.dvd_iff_mod_eq_zero]
  split <;> rfl

/-- A newline for each multiple of the width passed. -/
theorem length_lines_add (nl : Byte) (width col n : Nat) (f : Nat → Byte) :
    (lines nl true width col n f).length + col / width = n + (col + n) / width := by
  induction n with
  | zero => simp
  | succ n ih =>
    rw [lines_succ_last, List.length_append, List.length_cons, length_newlineAfter, ← Nat.add_assoc col n 1, Nat.succ_div]
    omega

end Sys2Proof.Safety

namespace Sys2Proof.Machine

open Sys2Proof.Safety Sys2Proof.Claims

/-! ### ACC after the bytes of a chunk (41_datapath.md R132 to R134) -/

/-- ACC after the bytes `bs` of a chunk of `c` bytes. -/
def chunkAcc (c : Nat) (bs : List Byte) : BitVec Config.accRoom := BitVec.ofNat 56 (packBytes bs * 2 ^ (8 * (c - bs.length)))

/-- A state with the bytes `bs` of its chunk read. -/
def State.withBytes (s : State) (bs : List Byte) : State :=
  s.setChunk (chunkAcc s.chunk bs) (BitVec.ofNat 3 bs.length)

theorem packBytes_mul_lt {c : Nat} {bs : List Byte} (h : bs.length ≤ c) :
    packBytes bs * 2 ^ (8 * (c - bs.length)) < 2 ^ (8 * c) := by
  have hsplit : 8 * c = 8 * bs.length + 8 * (c - bs.length) := by omega
  conv_rhs => rw [hsplit, pow_add]
  exact Nat.mul_lt_mul_of_pos_right (packBytes_lt bs) (by positivity)

theorem chunkAcc_toNat {c : Nat} {bs : List Byte} (hc : c ≤ 7) (h : bs.length ≤ c) :
    (chunkAcc c bs).toNat = packBytes bs * 2 ^ (8 * (c - bs.length)) := by
  rw [chunkAcc, BitVec.toNat_ofNat]
  exact Nat.mod_eq_of_lt ((packBytes_mul_lt h).trans_le (Nat.pow_le_pow_right (by decide) (show 8 * c ≤ 56 by omega)))

theorem State.withBytes_byteCnt_toNat {s : State} {bs : List Byte} (h : bs.length ≤ s.chunk) :
    (s.withBytes bs).byteCnt.toNat = bs.length := by
  have h7 : s.chunk ≤ 7 := Laws.Config.chunkBytes_le _
  exact (BitVec.toNat_ofNat ..).trans (Nat.mod_eq_of_lt (show bs.length < 2 ^ 3 by omega))

/-- AccInsert reads one byte more. -/
theorem State.withBytes_accInsert {s : State} {bs : List Byte} (h : bs.length < s.chunk) (b : Byte) :
    (s.withBytes bs).accInsert b = s.withBytes (bs ++ [b]) := by
  have h7 : s.chunk ≤ 7 := Laws.Config.chunkBytes_le _
  have hcount : (s.withBytes bs).byteCnt.toNat = bs.length := State.withBytes_byteCnt_toNat h.le
  have hplace : 8 * (s.chunk - bs.length) = 8 * (s.chunk - bs.length - 1) + 8 := by omega
  have hfree : ∀ i, 8 * (s.chunk - bs.length - 1) ≤ i → i < 8 * (s.chunk - bs.length - 1) + 8 →
      (chunkAcc s.chunk bs).getLsbD i = false := by
    intro i _ hi
    have hbelow : ¬ 8 * (s.chunk - bs.length) ≤ i := by omega
    rw [← BitVec.testBit_toNat, chunkAcc_toNat h7 h.le, Nat.testBit_mul_two_pow]
    simp [hbelow]
  have hacc : insertByte (chunkAcc s.chunk bs) (8 * (s.chunk - bs.length - 1)) b = chunkAcc s.chunk (bs ++ [b]) := by
    rw [insertByte_of_zero _ _ _ (by omega) hfree, chunkAcc, chunkAcc, ← BitVec.ofNat_add, packBytes_concat, hplace,
      List.length_append, List.length_singleton, Nat.sub_sub, pow_add]
    congr 1
    ring
  have hnext : BitVec.ofNat 3 bs.length + 1 = BitVec.ofNat 3 (bs ++ [b]).length := by
    rw [List.length_append, List.length_singleton, BitVec.ofNat_add]
    rfl
  rw [State.accInsert, hcount]
  show s.setChunk (insertByte (chunkAcc s.chunk bs) (8 * (s.chunk - bs.length - 1)) b) (BitVec.ofNat 3 bs.length + 1) = _
  rw [hacc, hnext]
  rfl

/-- AccInsert reads the bytes of a chunk one by one. -/
theorem State.withBytes_foldl_accInsert {s : State} {read bs : List Byte} (h : read.length + bs.length ≤ s.chunk) :
    bs.foldl State.accInsert (s.withBytes read) = s.withBytes (read ++ bs) := by
  induction bs generalizing read with
  | nil => simp
  | cons b bs ih =>
    rw [List.length_cons] at h
    rw [List.foldl_cons, State.withBytes_accInsert (by omega), ih (by simp; omega), List.append_assoc]
    rfl

/-- No byte read is an empty chunk. -/
theorem State.withBytes_nil (s : State) : s.withBytes [] = s.setChunk 0 0 := by
  have hzero : chunkAcc s.chunk [] = 0 := by simp [chunkAcc, packBytes]
  rw [State.withBytes, hzero]
  rfl

theorem State.eq_withBytes_nil {s : State} (hacc : s.acc = 0) (hcount : s.byteCnt = 0) : s = s.withBytes [] := by
  rw [State.withBytes_nil, ← hacc, ← hcount]
  rfl

end Sys2Proof.Machine

/-! The statements of 00_scope.md R8 and 41_datapath.md: the geometry, the packed word, the groups, the padding and the
lines. -/

namespace Sys2Proof.Proofs

open Sys2Proof.Machine Sys2Proof.Safety Sys2Proof.Claims

/-- Settles O31: GEOM's word as a number, and the table of the eight widths. -/
theorem geomReadsTheGeometryOfTheBitWidth : Obligations.GeomReadsTheGeometryOfTheBitWidth := by
  refine ⟨fun s => ⟨s.geomWord, exec_rdcsr_eq_respond (c := .geom) rfl s, fun hk => ?_, fun hk => ?_⟩,
    fun k h1 h8 => ?_, by decide⟩
  · have hc : chunkBytes s.bitWidth ≤ 7 := Laws.Config.chunkBytes_le _
    rw [State.geomWord_toNat, ← State.bitWidth_eq]
    omega
  · have hnone : ¬ (1 ≤ s.bitWidth ∧ s.bitWidth ≤ 8) := by
      rw [State.bitWidth_eq]
      omega
    refine BitVec.eq_of_toNat_eq ?_
    rw [State.geomWord_toNat, chunkBytes, symsPerChunk, if_neg hnone, if_neg hnone]
    rfl
  · interval_cases k <;> decide

/-- Settles O33: the bytes inserted are packed at the top of the chunk, and the packed bytes are their sum. -/
theorem packedWordIsBigEndian : Obligations.PackedWordIsBigEndian := by
  intro s bs hacc hcount hlen
  have h7 : s.chunk ≤ 7 := Laws.Config.chunkBytes_le _
  have hfold : bs.foldl State.accInsert s = s.withBytes bs := by
    conv_lhs => rw [State.eq_withBytes_nil hacc hcount]
    exact State.withBytes_foldl_accInsert (by simpa using hlen)
  have hacc' : (s.withBytes bs).acc.toNat = packBytes bs * 2 ^ (8 * (s.chunk - bs.length)) := chunkAcc_toNat h7 hlen
  have hpacked : (s.withBytes bs).packed.toNat = packBytes bs * 2 ^ (8 * (s.chunk - bs.length)) := by
    rw [State.packed, BitVec.toNat_setWidth, hacc']
    exact Nat.mod_eq_of_lt (packBytes_mul_lt hlen)
  rw [hfold, hpacked, packBytes_mul_eq_sum bs hlen, Finset.sum_range]
  exact ⟨by simp, State.withBytes_byteCnt_toNat hlen⟩

/-- Settles O34: the index is a group of the word, and the groups make it up. -/
theorem extractedIndexHasItsClosedForm : Obligations.ExtractedIndexHasItsClosedForm := by
  refine fun k c n p _ hgeom => ⟨fun j hj => ⟨?_, topBits_lt _ k⟩, ?_⟩
  · have hin : k * (j + 1) ≤ 8 * c := hgeom ▸ Nat.mul_le_mul_left k hj
    rw [shift_iterate, topBits_shift p hin, groupAt, Nat.shiftRight_eq_div_pow, Nat.and_two_pow_sub_one_eq_mod]
  · rw [sum_groupAt p.isLt hgeom.le, hgeom]
    simp

/-- Settles O35: `j k < 8 r` says that `j` is below the quotient rounded up; a full chunk has `8 C = k S`. -/
theorem realPositionsAreTheFirstOnes : Obligations.RealPositionsAreTheFirstOnes := by
  refine ⟨fun k r j h1 h8 => ?_, by decide⟩
  obtain ⟨-, -, -, -, hgeom⟩ := geometry_arith h1 h8
  have hreal : ∀ r, isReal k r j = true ↔ j * k < 8 * r := fun r => by rw [isReal, decide_eq_true_iff, Nat.mul_comm r]
  have hfull : j < symsPerChunk k → j * k < 8 * chunkBytes k := fun hj => by
    rw [← hgeom, Nat.mul_comm j]
    exact Nat.mul_lt_mul_of_pos_left hj h1
  refine ⟨?_, fun hr => ?_, fun hj => (hreal _).2 (hfull hj), fun hc hr hj => (hreal r).2 ?_⟩
  · rw [hreal, lt_ceilDiv_iff h1]
  · rw [ceilDiv_le_iff h1, hgeom]
    exact Nat.mul_le_mul_left 8 hr
  · have := hfull hj
    omega

/-- Settles O37: the loop of EmitChunk in closed form. -/
theorem emitChunkHasItsClosedForm : Obligations.EmitChunkHasItsClosedForm :=
  fun _ r h1 h8 hcol => State.emitChunk_eq r h1 h8 hcol

/-- Settles O38: a newline for each multiple of the width passed, and a column below the width passed none yet. -/
theorem newlinesOfAChunkAreCounted : Obligations.NewlinesOfAChunkAreCounted := by
  refine fun nl width col n f hcol => ⟨?_, rfl, lines_false nl width col n f⟩
  have hlen := length_lines_add nl width col n f
  rwa [Nat.div_eq_of_lt hcol, Nat.add_zero] at hlen

end Sys2Proof.Proofs

/-! SUPPORT. The text of a session, chunk by chunk: the groups of a longer word, the lines of one chunk more, and the state
after some bytes of a stream. -/

namespace Sys2Proof.Safety

open Sys2Proof.Machine Sys2Proof.Claims

/-! ### The groups of a longer word (41_datapath.md R137) -/

/-- Bits appended below leave a group of the upper part. -/
theorem groupAt_append_high {w d k v u j : Nat} (hu : u < 2 ^ d) (h : k * (j + 1) ≤ w) :
    groupAt (w + d) k (v * 2 ^ d + u) j = groupAt w k v j := by
  have hplace : w + d - k * (j + 1) = d + (w - k * (j + 1)) := by omega
  rw [groupAt, groupAt, hplace, pow_add, ← Nat.div_div_eq_div_mul, mul_comm v, Nat.mul_add_div (by positivity),
    Nat.div_eq_of_lt hu, Nat.add_zero]

/-- Bits put above leave a group of the lower part, counted from where that part begins. -/
theorem groupAt_append_low {w d k v u m j : Nat} (hw : w = k * m) (h : k * (j + 1) ≤ d) :
    groupAt (w + d) k (v * 2 ^ d + u) (m + j) = groupAt d k u j := by
  have hplace : w + d - k * (m + j + 1) = d - k * (j + 1) := by
    rw [hw, Nat.add_assoc m j 1, Nat.mul_add]
    omega
  obtain ⟨e, he⟩ : ∃ e, d = d - k * (j + 1) + (k + e) := ⟨k * j, by rw [Nat.mul_succ] at h ⊢; omega⟩
  have hsplit : v * 2 ^ d = 2 ^ (d - k * (j + 1)) * (2 ^ k * (v * 2 ^ e)) := by
    conv_lhs => rw [he, pow_add, pow_add]
    ring
  rw [groupAt, groupAt, hplace, hsplit, Nat.mul_add_div (by positivity), Nat.mul_add_mod]

/-! ### One chunk more -/

/-- The lines of `q` chunks packed as `v`, of which `r` bytes were read (42_stream.md R171). -/
def chunksText (s : State) (q r v : Nat) : List Byte :=
  lines s.params.nlChar s.wrapEn s.wrapWidth.toNat 0 (s.syms * q) (symbolAt s (8 * (q * s.chunk)) r v)

/-- The column after `q` chunks from an empty line (41_datapath.md R149). -/
def chunksColumn (s : State) (q : Nat) : Nat := columnAfter s.wrapEn s.wrapWidth.toNat 0 (s.syms * q)

/-- The newlines fall as if the column counted every symbol before. -/
theorem lines_chunksColumn (s : State) (q n : Nat) (f : Nat → Byte) :
    lines s.params.nlChar s.wrapEn s.wrapWidth.toNat (chunksColumn s q) n f =
      lines s.params.nlChar s.wrapEn s.wrapWidth.toNat (s.syms * q) n f := by
  unfold chunksColumn columnAfter
  cases s.wrapEn
  · simp [lines_false]
  · simp [lines_mod]

theorem columnAfter_chunksColumn (s : State) (q : Nat) :
    columnAfter s.wrapEn s.wrapWidth.toNat (chunksColumn s q) s.syms = chunksColumn s (q + 1) := by
  unfold chunksColumn columnAfter
  cases s.wrapEn <;> simp [Nat.mul_succ]

section Geometry

variable {s : State} (hv : s.configValid = true)
include hv

/-- Whole chunks hold a whole number of symbols (00_scope.md R8). -/
theorem bitWidth_mul_syms_mul (q : Nat) : s.bitWidth * (s.syms * q) = 8 * (q * s.chunk) := by
  obtain ⟨-, -, -, -, -, hgeom, -⟩ := State.configValid_arith hv
  rw [← Nat.mul_assoc, hgeom]
  ring

/-- The symbols of the chunks before the last are those of a stream that ends there. -/
theorem symbolAt_earlier_chunk {q r v u j : Nat} (hu : u < 2 ^ (8 * s.chunk)) (hj : j < s.syms * q) :
    symbolAt s (8 * ((q + 1) * s.chunk)) (q * s.chunk + r) (v * 2 ^ (8 * s.chunk) + u) j =
      symbolAt s (8 * (q * s.chunk)) (q * s.chunk) v j := by
  obtain ⟨h1, -⟩ := State.configValid_arith hv
  have hword : 8 * ((q + 1) * s.chunk) = 8 * (q * s.chunk) + 8 * s.chunk := by ring
  have hgroup : s.bitWidth * (j + 1) ≤ 8 * (q * s.chunk) := bitWidth_mul_syms_mul hv q ▸ Nat.mul_le_mul_left _ hj
  have hbelow : j * s.bitWidth < 8 * (q * s.chunk) := by
    rw [Nat.mul_succ, Nat.mul_comm s.bitWidth] at hgroup
    omega
  rw [symbolAt, symbolAt, if_pos (by omega), if_pos (by omega), hword, groupAt_append_high hu hgroup]

/-- The symbols of the last chunk are its own. -/
theorem symbolAt_last_chunk {q r v u j : Nat} (hj : j < s.syms) :
    symbolAt s (8 * ((q + 1) * s.chunk)) (q * s.chunk + r) (v * 2 ^ (8 * s.chunk) + u) (s.syms * q + j) =
      symbolAt s (8 * s.chunk) r u j := by
  obtain ⟨-, -, -, -, -, hgeom, -⟩ := State.configValid_arith hv
  have hword : 8 * ((q + 1) * s.chunk) = 8 * (q * s.chunk) + 8 * s.chunk := by ring
  have hwhole : s.bitWidth * (s.syms * q) = 8 * (q * s.chunk) := bitWidth_mul_syms_mul hv q
  have hgroup : s.bitWidth * (j + 1) ≤ 8 * s.chunk := hgeom ▸ Nat.mul_le_mul_left _ hj
  have hreal : (s.syms * q + j) * s.bitWidth < (q * s.chunk + r) * 8 ↔ j * s.bitWidth < r * 8 := by
    rw [Nat.add_mul, Nat.mul_comm _ s.bitWidth, hwhole]
    omega
  rw [symbolAt, symbolAt, hword, groupAt_append_low hwhole.symm hgroup, if_congr hreal rfl rfl]

theorem chunksText_succ {q r v u : Nat} (hu : u < 2 ^ (8 * s.chunk)) :
    chunksText s (q + 1) (q * s.chunk + r) (v * 2 ^ (8 * s.chunk) + u) =
      chunksText s q (q * s.chunk) v ++
        lines s.params.nlChar s.wrapEn s.wrapWidth.toNat (s.syms * q) s.syms (symbolAt s (8 * s.chunk) r u) := by
  rw [chunksText, Nat.mul_succ, lines_add, lines_congr fun j hj => symbolAt_earlier_chunk hv hu hj,
    lines_congr fun j hj => symbolAt_last_chunk hv hj, Nat.zero_add]
  rfl

end Geometry

/-! ### The state in a session -/

/-- In a session of `s`, after `q` chunks that added `text`, with an empty chunk. -/
def afterChunks (s : State) (q : Nat) (text : List Byte) : State :=
  { s with
    state := .active
    errCode := .none
    col := BitVec.ofNat 16 (chunksColumn s q)
    out := s.out ++ text }

/-- One chunk more adds its text and moves the column. -/
theorem afterChunks_succ (s : State) (q : Nat) (text more : List Byte) :
    afterChunks s (q + 1) (text ++ more) =
      { afterChunks s q text with
        col := BitVec.ofNat 16 (chunksColumn s (q + 1))
        out := (afterChunks s q text).out ++ more } := by
  simp [afterChunks]

/-- In a session of `s`, after the `q` whole chunks of the bytes `full` and the bytes `part` of the next one. -/
def inSession (s : State) (q : Nat) (full part : List Byte) : State :=
  (afterChunks s q (chunksText s q (q * s.chunk) (packBytes full))).withBytes part

section Session

variable {s : State} (hv : s.configValid = true)
include hv

theorem chunksColumn_lt (q : Nat) : chunksColumn s q < 2 ^ 16 ∧ (s.wrapEn = true → chunksColumn s q < s.wrapWidth.toNat) := by
  unfold chunksColumn columnAfter
  cases he : s.wrapEn
  · simp
  · have hlt : (0 + s.syms * q) % s.wrapWidth.toNat < s.wrapWidth.toNat := Nat.mod_lt _ (State.configValid_width hv he)
    exact ⟨hlt.trans s.wrapWidth.isLt, fun _ => hlt⟩

theorem afterChunks_col_toNat (q : Nat) (text : List Byte) : (afterChunks s q text).col.toNat = chunksColumn s q :=
  (BitVec.toNat_ofNat ..).trans (Nat.mod_eq_of_lt (chunksColumn_lt hv q).1)

/-- A chunk emitted in a session adds its lines, and leaves the next chunk empty (41_datapath.md R147). -/
theorem emitChunk_afterChunks (q r : Nat) (text part : List Byte) (hpart : part.length ≤ s.chunk) :
    ((afterChunks s q text).withBytes part).emitChunk r =
      (afterChunks s (q + 1) (text ++ lines s.params.nlChar s.wrapEn s.wrapWidth.toNat (s.syms * q) s.syms
        (symbolAt s (8 * s.chunk) r (packBytes part * 2 ^ (8 * (s.chunk - part.length)))))).withBytes [] := by
  obtain ⟨h1, h8, -, h7, -⟩ := State.configValid_arith hv
  have hcol := afterChunks_col_toNat hv q text
  have hfits : columnFits ((afterChunks s q text).withBytes part) := fun he => hcol.trans_lt ((chunksColumn_lt hv q).2 he)
  have hacc : (chunkAcc s.chunk part).toNat % 2 ^ (8 * s.chunk) = packBytes part * 2 ^ (8 * (s.chunk - part.length)) := by
    rw [chunkAcc_toNat h7 hpart]
    exact Nat.mod_eq_of_lt (packBytes_mul_lt hpart)
  have htext : chunkText ((afterChunks s q text).withBytes part) r
        (((afterChunks s q text).withBytes part).acc.toNat % 2 ^ (8 * s.chunk)) =
      lines s.params.nlChar s.wrapEn s.wrapWidth.toNat (s.syms * q) s.syms
        (symbolAt s (8 * s.chunk) r (packBytes part * 2 ^ (8 * (s.chunk - part.length)))) := by
    rw [← lines_chunksColumn, ← hcol, ← hacc]
    rfl
  have hcolumn : columnAfter s.wrapEn s.wrapWidth.toNat ((afterChunks s q text).withBytes part).col.toNat s.syms =
      chunksColumn s (q + 1) := (congrArg (columnAfter _ _ · _) hcol).trans (columnAfter_chunksColumn s q)
  rw [State.withBytes_nil, State.emitChunk_eq (s := (afterChunks s q text).withBytes part) r h1 h8 hfits, ← htext,
    afterChunks_succ, ← hcolumn]
  rfl

end Session

/-- A session begins with no chunk (40_config.md R118). -/
theorem beginSession_eq_inSession (s : State) : s.beginSession = inSession s 0 [] [] := by
  have hcol : BitVec.ofNat 16 (chunksColumn s 0) = 0 := by
    unfold chunksColumn columnAfter
    cases s.wrapEn <;> simp
  have hstart : afterChunks s 0 [] = { s with state := .active, errCode := .none, col := 0 } := by
    rw [afterChunks, hcol, List.append_nil]
  rw [inSession, chunksText, Nat.mul_zero, lines_zero, hstart, State.withBytes_nil]
  rfl

theorem inSession_accInsert {s : State} {q : Nat} {full part : List Byte} (h : part.length < s.chunk) (b : Byte) :
    (inSession s q full part).accInsert b = inSession s q full (part ++ [b]) :=
  State.withBytes_accInsert (s := afterChunks s q _) h b

theorem inSession_byteCnt_toNat {s : State} {q : Nat} {full part : List Byte} (h : part.length ≤ s.chunk) :
    (inSession s q full part).byteCnt.toNat = part.length :=
  State.withBytes_byteCnt_toNat (s := afterChunks s q _) h

/-- PUSH inside a chunk reads one byte more. -/
theorem pushEffect_inSession_of_lt {s : State} {q : Nat} {full part : List Byte} (hlt : part.length + 1 < s.chunk)
    (b : Byte) :
    pushEffect b (inSession s q full part) = inSession s q full (part ++ [b]) := by
  have hlen : (part ++ [b]).length = part.length + 1 := by simp
  have hcount : (inSession s q full (part ++ [b])).byteCnt.toNat = part.length + 1 :=
    (inSession_byteCnt_toNat (hlen.trans_lt hlt).le).trans hlen
  rw [pushEffect, inSession_accInsert (Nat.lt_of_succ_lt hlt)]
  exact if_neg (hcount.trans_ne hlt.ne)

section Session

variable {s : State} (hv : s.configValid = true)
include hv

/-- PUSH of a chunk's last byte makes it one of the whole chunks. -/
theorem pushEffect_inSession_of_eq {q : Nat} {full part : List Byte} (hlast : part.length + 1 = s.chunk) (b : Byte) :
    pushEffect b (inSession s q full part) = inSession s (q + 1) (full ++ (part ++ [b])) [] := by
  have hlen : (part ++ [b]).length = s.chunk := by simpa using hlast
  have hcount : (inSession s q full (part ++ [b])).byteCnt.toNat = s.chunk :=
    (inSession_byteCnt_toNat hlen.le).trans hlen
  have hemit : pushEffect b (inSession s q full part) = (inSession s q full (part ++ [b])).emitChunk s.chunk := by
    rw [pushEffect, inSession_accInsert (Nat.lt_of_succ_le hlast.le)]
    exact if_pos hcount
  have hword : packBytes (part ++ [b]) < 2 ^ (8 * s.chunk) := hlen ▸ packBytes_lt (part ++ [b])
  have htext := chunksText_succ hv (q := q) (r := s.chunk) (v := packBytes full) hword
  rw [hemit, inSession, inSession, emitChunk_afterChunks hv q _ _ _ hlen.le, packBytes_append full, hlen, Nat.sub_self,
    Nat.mul_zero, pow_zero, Nat.mul_one, Nat.succ_mul q, htext]

/-- The bytes of a stream, pushed one by one. -/
theorem execAll_pushes {q : Nat} {full part : List Byte} (hfull : full.length = q * s.chunk)
    (hpart : part.length < s.chunk) (xs : List Byte) :
    ∃ q' full' part', full'.length = q' * s.chunk ∧ part'.length < s.chunk ∧ full' ++ part' = full ++ part ++ xs ∧
      execAll (xs.map .push) (inSession s q full part) = .next (inSession s q' full' part') := by
  induction xs generalizing q full part with
  | nil => exact ⟨q, full, part, hfull, hpart, (List.append_nil _).symm, rfl⟩
  | cons b xs ih =>
    have hpush : exec (.push b) (inSession s q full part) = .next (pushEffect b (inSession s q full part)) :=
      exec_of_needsSession_active rfl rfl
    rcases Nat.lt_or_eq_of_le (Nat.succ_le_of_lt hpart) with hlt | hlast
    · rw [pushEffect_inSession_of_lt hlt] at hpush
      obtain ⟨q', full', part', hfull', hpart', happend, hrun⟩ := ih hfull (part := part ++ [b]) (by simpa using hlt)
      exact ⟨q', full', part', hfull', hpart', by simpa using happend, (execAll_cons hpush _).trans hrun⟩
    · rw [pushEffect_inSession_of_eq hv hlast] at hpush
      have hwhole : (full ++ (part ++ [b])).length = (q + 1) * s.chunk := by
        have hlen : (part ++ [b]).length = s.chunk := by simpa using hlast
        rw [List.length_append, hfull, hlen, Nat.succ_mul]
      obtain ⟨q', full', part', hfull', hpart', happend, hrun⟩ := ih hwhole (part := []) (Nat.zero_lt_of_lt hpart)
      exact ⟨q', full', part', hfull', hpart', by simpa using happend, (execAll_cons hpush _).trans hrun⟩

/-- END's flush completes the last chunk, if a byte of it was read: the bytes zero-filled to whole chunks
(42_stream.md R166, R171). -/
theorem flushChunk_inSession {q : Nat} {full part : List Byte} (hfull : full.length = q * s.chunk)
    (hpart : part.length < s.chunk) :
    (inSession s q full part).flushChunk =
      (afterChunks s (chunkCount s (full ++ part).length)
        (chunksText s (chunkCount s (full ++ part).length) (full ++ part).length
          (packBytes (full ++ part) *
            256 ^ (chunkCount s (full ++ part).length * s.chunk - (full ++ part).length)))).withBytes [] := by
  have hcount : (inSession s q full part).byteCnt.toNat = part.length := inSession_byteCnt_toNat hpart.le
  have hchunks : chunkCount s (full ++ part).length = q + ceilDiv part.length s.chunk := by
    rw [List.length_append, hfull, chunkCount, Nat.mul_comm, ceilDiv_mul_add (Nat.zero_lt_of_lt hpart)]
  rw [State.flushChunk, hcount, hchunks, List.length_append, hfull]
  split
  next hread =>
    have hfill : (q + 1) * s.chunk - (q * s.chunk + part.length) = s.chunk - part.length := by
      rw [Nat.succ_mul]
      omega
    have hsplit : 8 * s.chunk = 8 * part.length + 8 * (s.chunk - part.length) := by omega
    have hvalue : packBytes (full ++ part) * 256 ^ (s.chunk - part.length) =
        packBytes full * 2 ^ (8 * s.chunk) + packBytes part * 2 ^ (8 * (s.chunk - part.length)) := by
      rw [packBytes_append, hsplit, pow_add, show 256 = 2 ^ 8 from rfl, ← pow_mul]
      ring
    rw [ceilDiv_eq_one hread hpart.le, hfill, hvalue, chunksText_succ hv (packBytes_mul_lt hpart.le), inSession,
      emitChunk_afterChunks hv q _ _ _ hpart.le]
  next hnone =>
    obtain rfl : part = [] := List.eq_nil_of_length_eq_zero (Nat.eq_zero_of_not_pos hnone)
    simp [ceilDiv_of_zero, inSession]

/-- END in a session appends the rest of its text and clears the datapath (42_stream.md R166, R167, R171). -/
theorem endEffect_inSession {q : Nat} {full part : List Byte} (hfull : full.length = q * s.chunk)
    (hpart : part.length < s.chunk) :
    endEffect (inSession s q full part) =
      { s with
        state := .done
        errCode := .none
        acc := 0
        byteCnt := 0
        col := 0
        out := s.out ++ sessionText s (full ++ part) } := by
  set count := chunkCount s (full ++ part).length
  set text := chunksText s count (full ++ part).length
    (packBytes (full ++ part) * 256 ^ (count * s.chunk - (full ++ part).length)) with htext
  have hcol := afterChunks_col_toNat hv count text
  have hclosed : s.wrapEn = false → (afterChunks s count text).col = 0 := fun he =>
    BitVec.eq_of_toNat_eq (hcol.trans (by simp [chunksColumn, columnAfter, he]))
  have hopen : s.wrapEn = true ∧ (afterChunks s count text).col ≠ 0 ↔
      s.wrapEn = true ∧ s.syms * count % s.wrapWidth.toNat ≠ 0 := by
    refine and_congr_right fun he => ?_
    rw [ne_eq, ← BitVec.toNat_inj, hcol]
    simp [chunksColumn, columnAfter, he]
  have hline := State.finishLine_eq (s := (afterChunks s count text).withBytes []) hclosed
  rw [endEffect, flushChunk_inSession hv hfull hpart, hline, State.withBytes_nil]
  have hsession : sessionText s (full ++ part) =
      text ++ if s.wrapEn = true ∧ s.syms * count % s.wrapWidth.toNat ≠ 0 then [s.params.nlChar] else [] := rfl
  rw [hsession, ← List.append_assoc, ← if_congr hopen rfl rfl]
  rfl

end Session

/-! ### The counts of a session's text (42_stream.md R171) -/

/-- The symbols of `n` bytes: the real ones, and the pads of the short chunk; `8 n = k S (n / C) + 8 (n mod C)`. -/
theorem stream_symbols_eq {s : State} (hv : s.configValid = true) (n : Nat) :
    s.syms * ceilDiv n s.chunk = ceilDiv (8 * n) s.bitWidth +
      if n % s.chunk = 0 then 0 else s.syms - ceilDiv (8 * (n % s.chunk)) s.bitWidth := by
  obtain ⟨h1, -, hchunk, -, -, hgeom, -⟩ := State.configValid_arith hv
  obtain ⟨q, r, hr, rfl⟩ : ∃ q r, r < s.chunk ∧ n = s.chunk * q + r :=
    ⟨n / s.chunk, n % s.chunk, Nat.mod_lt n hchunk, (Nat.div_add_mod n s.chunk).symm⟩
  have hbits : 8 * (s.chunk * q + r) = s.bitWidth * (s.syms * q) + 8 * r := by
    rw [bitWidth_mul_syms_mul hv, Nat.mul_comm q]
    omega
  rw [hbits, ceilDiv_mul_add h1, ceilDiv_mul_add hchunk, Nat.mul_add_mod, Nat.mod_eq_of_lt hr, Nat.mul_add]
  split
  next hr0 => simp [hr0, ceilDiv_of_zero]
  next hr0 =>
    have hle : ceilDiv (8 * r) s.bitWidth ≤ s.syms := (ceilDiv_le_iff h1).2 (hgeom ▸ Nat.mul_le_mul_left 8 hr.le)
    rw [ceilDiv_eq_one (Nat.pos_of_ne_zero hr0) hr.le]
    omega

/-- Wrapped text from an empty line, its last line ended: a newline for each line begun. -/
theorem length_ended_lines (nl : Byte) {width : Nat} (h : 0 < width) (total : Nat) (f : Nat → Byte) :
    (lines nl true width 0 total f ++ if total % width ≠ 0 then [nl] else []).length = total + ceilDiv total width := by
  have hlen := length_lines_add nl width 0 total f
  have hdiv := Nat.div_add_mod total width
  have hceil : ceilDiv total width = total / width + ceilDiv (total % width) width := by
    rw [← ceilDiv_mul_add h, hdiv]
  rw [Nat.zero_div, Nat.add_zero, Nat.zero_add] at hlen
  rw [List.length_append, hlen, hceil]
  by_cases hr : total % width = 0
  · simp [hr, ceilDiv_of_zero]
  · rw [if_pos hr, ceilDiv_eq_one (Nat.pos_of_ne_zero hr) (Nat.mod_lt _ h).le]
    rfl

/-- Wrapped text of at least one symbol, its last line ended, ends with a newline. -/
theorem getLast?_ended_lines (nl : Byte) (width : Nat) {total : Nat} (h : 0 < total) (f : Nat → Byte) :
    (lines nl true width 0 total f ++ if total % width ≠ 0 then [nl] else []).getLast? = some nl := by
  by_cases hr : total % width = 0
  · obtain ⟨n, rfl⟩ : ∃ n, total = n + 1 := ⟨total - 1, by omega⟩
    simp [hr, lines_succ_last, newlineAfter]
  · simp [hr]

/-! ### Whole lines (42_stream.md R171) -/

/-- Fewer symbols than a line's width bring no newline. -/
theorem lines_of_lt (nl : Byte) {width n : Nat} (h : n < width) (f : Nat → Byte) :
    lines nl true width 0 n f = (List.range n).map f := by
  induction n with
  | zero => rfl
  | succ n ih =>
    rw [lines_succ_last, ih (by omega), Nat.zero_add, newlineAfter_of_lt _ _ (by omega), if_neg (by omega),
      List.range_succ, List.map_append]
    rfl

/-- A full line is its symbols and one newline. -/
theorem lines_width (nl : Byte) {width : Nat} (h : 0 < width) (f : Nat → Byte) :
    lines nl true width 0 width f = (List.range width).map f ++ [nl] := by
  obtain ⟨n, rfl⟩ : ∃ n, width = n + 1 := ⟨width - 1, by omega⟩
  rw [lines_succ_last, lines_of_lt nl (Nat.lt_succ_self n), Nat.zero_add, newlineAfter, if_pos ⟨rfl, Nat.mod_self _⟩,
    List.range_succ, List.map_append, List.append_assoc]
  rfl

/-- Some full lines and then some more symbols, on a line of their own. -/
theorem lines_full_add (nl : Byte) {width : Nat} (h : 0 < width) (q n : Nat) (f : Nat → Byte) :
    lines nl true width 0 (q * width + n) f =
      ((List.range q).flatMap fun l => ((List.range width).map fun i => f (l * width + i)) ++ [nl]) ++
        lines nl true width 0 n fun i => f (q * width + i) := by
  have hcolumn : ∀ q n f, lines nl true width (0 + q * width) n f = lines nl true width 0 n f := fun q n f => by
    rw [← lines_mod, Nat.zero_add, Nat.mul_mod_left]
  induction q generalizing n with
  | zero => simp
  | succ q ih =>
    have hfull := ih width
    rw [lines_width nl h] at hfull
    rw [Nat.succ_mul, lines_add, hfull, ← Nat.succ_mul, hcolumn, List.range_succ, List.flatMap_append,
      List.flatMap_singleton]

end Sys2Proof.Safety

/-! The statements of 42_stream.md about whole sessions. -/

namespace Sys2Proof.Proofs

open Sys2Proof.Machine Sys2Proof.Safety Sys2Proof.Claims

/-- Settles O50: START, then the pushes chunk by chunk, then END's flush and the end of an open line. -/
theorem sessionEmitsItsBytesAsOneBitString : Obligations.SessionEmitsItsBytesAsOneBitString := by
  intro s xs hne hv
  obtain ⟨-, -, hchunk, -⟩ := State.configValid_arith hv
  have hstart : exec .start s = .next (inSession s 0 [] []) := by
    rw [exec_start hne, startEffect_of_valid hv, beginSession_eq_inSession]
  obtain ⟨q, full, part, hfull, hpart, happend, hpushes⟩ :=
    execAll_pushes hv (q := 0) (full := []) (part := []) (Nat.zero_mul _).symm hchunk xs
  have hend : exec .endStream (inSession s q full part) = .next (endEffect (inSession s q full part)) :=
    exec_of_needsSession_active rfl rfl
  have hstream : full ++ part = xs := happend
  rw [sessionCommands, List.cons_append, execAll_cons hstart, execAll_append hpushes, execAll_cons hend, execAll_nil,
    endEffect_inSession hv hfull hpart, hstream]

/-- Settles O51: the real symbols and the pads make up the whole chunks, and the newlines are the lines begun. -/
theorem sessionTextHasItsCounts : Obligations.SessionTextHasItsCounts := by
  intro s xs hv n k total r
  obtain ⟨h1, -, hchunk, -, hsyms, -⟩ := State.configValid_arith hv
  have htext : sessionText s xs = lines s.params.nlChar s.wrapEn s.wrapWidth.toNat 0 total _ ++
    if s.wrapEn = true ∧ total % s.wrapWidth.toNat ≠ 0 then [s.params.nlChar] else [] := rfl
  refine ⟨?_, ?_, fun width value j => ?_, fun he hpos => ?_, fun hzero => ?_⟩
  · rw [htext]
    cases he : s.wrapEn
    · simp [lines_false]
    · simpa using length_ended_lines s.params.nlChar (State.configValid_width hv he) total _
  · exact stream_symbols_eq hv n
  · refine if_congr ?_ rfl rfl
    rw [lt_ceilDiv_iff h1, Nat.mul_comm n]
  · have htotal : 0 < total := Nat.mul_pos hsyms ((lt_ceilDiv_iff hchunk).2 (by omega))
    rw [htext, he]
    simpa using getLast?_ended_lines s.params.nlChar s.wrapWidth.toNat htotal _
  · have htotal : total = 0 := by simp [total, hzero, ceilDiv_of_zero]
    rw [htext, htotal]
    simp

/-- Settles O52: full lines of WIDTH symbols, then the rest of the symbols on an open line, if any. -/
theorem wrappedOutputIsLinesOfAtMostTheWidth : Obligations.WrappedOutputIsLinesOfAtMostTheWidth := by
  intro nl width total f hw
  obtain ⟨q, r, hr, rfl⟩ : ∃ q r, r < width ∧ total = q * width + r :=
    ⟨total / width, total % width, Nat.mod_lt _ hw, (Nat.div_add_mod' total width).symm⟩
  have hmod : (q * width + r) % width = r := by rw [Nat.mul_comm, Nat.mul_add_mod, Nat.mod_eq_of_lt hr]
  have hceil : ceilDiv (q * width + r) width = q + ceilDiv r width := by rw [Nat.mul_comm, ceilDiv_mul_add hw]
  have hfull : ∀ l ∈ List.range q, min width (q * width + r - l * width) = width := fun l hl => by
    have : (l + 1) * width ≤ q * width := Nat.mul_le_mul_right _ (List.mem_range.1 hl)
    rw [Nat.succ_mul] at this
    omega
  have hlines : ((List.range q).flatMap fun l =>
        ((List.range (min width (q * width + r - l * width))).map fun i => f (l * width + i)) ++ [nl]) =
      (List.range q).flatMap fun l => ((List.range width).map fun i => f (l * width + i)) ++ [nl] :=
    List.flatMap_congr fun l hl => by rw [hfull l hl]
  rw [lines_full_add nl hw, lines_of_lt nl hr, hmod, hceil]
  rcases r.eq_zero_or_pos with rfl | hpos
  · simpa [ceilDiv_of_zero] using hlines.symm
  · have hlast : min width (q * width + r - q * width) = r := by omega
    rw [ceilDiv_eq_one hpos hr.le, List.range_succ, List.flatMap_append, List.flatMap_singleton, hlines, hlast,
      if_pos hpos.ne', List.append_assoc]

end Sys2Proof.Proofs

/-! SUPPORT. The assembler's literals, the values its pseudo-instructions write, and what the commands of LOADALPHA do to
the alphabet. -/

namespace Sys2Proof.Machine

open Sys2Proof.Safety Sys2Proof.Claims

/-! ### Literals (30_encoding.md R95) -/

@[simp] theorem fit_toNat {len : Nat} (v : BitVec len) : fit len v.toNat = some v := by
  rw [fit, if_pos v.isLt, BitVec.ofNat_toNat, BitVec.setWidth_eq]

@[simp] theorem fitBytes_map_toNat (bs : List Byte) : fitBytes (bs.map BitVec.toNat) = some bs := by
  induction bs with
  | nil => rfl
  | cons b bs ih =>
    rw [fitBytes] at ih ⊢
    simp [ih]

/-- A literal is a value of its field, or too large for it. -/
theorem fit_cases (len n : Nat) : (∃ v : BitVec len, n = v.toNat) ∨ ¬ n < 2 ^ len ∧ fit len n = none := by
  by_cases h : n < 2 ^ len
  · exact .inl ⟨BitVec.ofNat len n, (Nat.mod_eq_of_lt h).symm⟩
  · exact .inr ⟨h, if_neg h⟩

/-- A command's word as a literal word. -/
theorem ofNat_eq_encode (i : Instr) {n : Nat} (h : (encode i).toNat = n) : BitVec.ofNat 32 n = encode i := by
  rw [← h, BitVec.ofNat_toNat, BitVec.setWidth_eq]

end Sys2Proof.Machine

namespace Sys2Proof.Proofs

open Sys2Proof.Machine Sys2Proof.Safety Sys2Proof.Claims

/-- Settles O55: operands that fit are fields, and the word is their sum; one that does not leaves no command. -/
theorem assembledLinesAreTheirWords : Obligations.AssembledLinesAreTheirWords := by
  refine ⟨fun csr value => ?_, fun csr => ?_, fun index sym => ?_, fun b => ?_, fun w => ?_, rfl, rfl, rfl, rfl⟩
  · rcases fit_cases 4 csr with ⟨csr, rfl⟩ | ⟨hlt, hfit⟩
    · rcases fit_cases 24 value with ⟨value, rfl⟩ | ⟨hlt, hfit⟩
      · rw [if_pos ⟨csr.isLt, value.isLt⟩, ofNat_eq_encode (.wrcsr csr value) (Laws.encode_toNat _)]
        simp [lineWords, lineCommands]
      · rw [if_neg fun h => hlt h.2]
        simp [lineWords, lineCommands, hfit]
    · rw [if_neg fun h => hlt h.1]
      simp [lineWords, lineCommands, hfit]
  · rcases fit_cases 4 csr with ⟨csr, rfl⟩ | ⟨hlt, hfit⟩
    · rw [if_pos csr.isLt, ofNat_eq_encode (.rdcsr csr) (Laws.encode_toNat _)]
      simp [lineWords, lineCommands]
    · rw [if_neg (show ¬ csr < 16 from hlt)]
      simp [lineWords, lineCommands, hfit]
  · rcases fit_cases 8 index with ⟨index, rfl⟩ | ⟨hlt, hfit⟩
    · rcases fit_cases 8 sym with ⟨sym, rfl⟩ | ⟨hlt, hfit⟩
      · rw [if_pos ⟨index.isLt, sym.isLt⟩, ofNat_eq_encode (.wralpha index sym) (Laws.encode_toNat _)]
        simp [lineWords, lineCommands]
      · rw [if_neg fun h => hlt h.2]
        simp [lineWords, lineCommands, hfit]
    · rw [if_neg fun h => hlt h.1]
      simp [lineWords, lineCommands, hfit]
  · rcases fit_cases 8 b with ⟨b, rfl⟩ | ⟨hlt, hfit⟩
    · rw [if_pos b.isLt, ofNat_eq_encode (.push b) (Laws.encode_toNat _)]
      simp [lineWords, lineCommands]
    · rw [if_neg (show ¬ b < 256 from hlt)]
      simp [lineWords, lineCommands, hfit]
  · rcases fit_cases 32 w with ⟨w, rfl⟩ | ⟨hlt, hfit⟩
    · rw [if_pos w.isLt, BitVec.ofNat_toNat, BitVec.setWidth_eq]
      simp [lineWords]
    · rw [if_neg hlt]
      simp [lineWords, hfit]

end Sys2Proof.Proofs

namespace Sys2Proof.Machine

open Sys2Proof.Safety Sys2Proof.Claims

/-! ### The values of SETMODE and SETWRAP (30_encoding.md R96) -/

/-- MODE with a pad symbol: PAD_SYM, PAD_EN and BIT_WIDTH at their places. -/
def modeValue (pad : Byte) (k : BitVec 4) : BitVec 24 := pad ++ 0#7 ++ 1#1 ++ 0#4 ++ k

/-- WRAP with a width or without: EN and WIDTH at their places. -/
def wrapValue : Option (BitVec 16) → BitVec 24
  | none => 0
  | some w => 0#7 ++ 1#1 ++ w

theorem lineCommands_setMode (k : BitVec 4) (pad : Byte) :
    lineCommands (.setMode k.toNat (some pad.toNat)) = some [.wrcsr Csr.mode.number (modeValue pad k)] := by
  simp [lineCommands, modeValue]

theorem lineCommands_setWrap (width : Option (BitVec 16)) :
    lineCommands (.setWrap (width.map BitVec.toNat)) = some [.wrcsr Csr.wrap.number (wrapValue width)] := by
  cases width <;> simp [lineCommands, wrapValue]

theorem modeValue_toNat (pad : Byte) (k : BitVec 4) : (modeValue pad k).toNat = pad.toNat * 2 ^ 16 + 2 ^ 8 + k.toNat := by
  simp only [modeValue, Laws.toNat_append, BitVec.toNat_ofNat]
  omega

theorem wrapValue_some_toNat (w : BitVec 16) : (wrapValue (some w)).toNat = 2 ^ 16 + w.toNat := by
  simp only [wrapValue, Laws.toNat_append, BitVec.toNat_ofNat]
  omega

theorem modeValue_eq_or (pad : Byte) (k : BitVec 4) :
    modeValue pad k = (pad.setWidth 24 <<< 16) ||| (1 <<< 8) ||| k.setWidth 24 := by
  have hk : k.toNat < 2 ^ 4 := k.isLt
  have hlow : (k.setWidth 8).setWidth 24 = k.setWidth 24 := by
    refine BitVec.eq_of_toNat_eq ?_
    simp only [BitVec.toNat_setWidth]
    omega
  have hfields : modeValue pad k = pad ++ 1#8 ++ k.setWidth 8 := by
    refine BitVec.eq_of_toNat_eq ?_
    simp only [modeValue_toNat, Laws.toNat_append, BitVec.toNat_ofNat, BitVec.toNat_setWidth]
    omega
  rw [hfields, Laws.append_append_eq_or, hlow]
  rfl

theorem wrapValue_some_eq_or (w : BitVec 16) : wrapValue (some w) = (1 <<< 16) ||| w.setWidth 24 := by
  have hzero : (0#7).setWidth 24 <<< (1 + 16) = 0#24 := rfl
  rw [wrapValue, Laws.append_append_eq_or, hzero, BitVec.zero_or]
  rfl

/-- MODE without a pad symbol is BIT_WIDTH alone. -/
theorem modeValue_none_eq (k : BitVec 4) : 0#20 ++ k = k.setWidth 24 := by
  refine BitVec.eq_of_toNat_eq ?_
  simp only [Laws.toNat_append, BitVec.toNat_ofNat, BitVec.toNat_setWidth]
  omega

/-! ### CHUNK over the reads of a stream (30_encoding.md R97, 42_stream.md R172) -/

/-- What CHUNK expands a read of at most `c` bytes to. -/
def chunkExpansion (c : Nat) (bs : List Byte) : List Instr := pushCommands bs ++ if bs.length < c then [.endStream] else []

theorem lineCommands_chunk {c : Nat} {bs : List Byte} (h : bs.length ≤ c) :
    lineCommands (.chunk c bs.length (bs.map BitVec.toNat)) = some (chunkExpansion c bs) := by
  simp [lineCommands, h, chunkExpansion]

/-- Reads of `c` bytes each make up what they read. -/
theorem flatMap_full_reads (c q : Nat) (xs : List Byte) :
    ((List.range q).flatMap fun i => (xs.drop (i * c)).take c) = xs.take (q * c) := by
  induction q with
  | zero => simp
  | succ q ih =>
    rw [List.range_succ, List.flatMap_append, ih, List.flatMap_singleton, Nat.succ_mul, List.take_add]

theorem mapM_eq_some_map {α β : Type} {f : α → Option β} {g : α → β} {l : List α} (h : ∀ a ∈ l, f a = some (g a)) :
    l.mapM f = some (l.map g) := by
  induction l with
  | nil => rfl
  | cons a l ih => simp [h a (by simp), ih fun b hb => h b (by simp [hb])]

end Sys2Proof.Machine

namespace Sys2Proof.Proofs

open Sys2Proof.Machine Sys2Proof.Safety Sys2Proof.Claims

/-- Settles O56: the operands fit their fields, and the fields are the value. -/
theorem pseudoInstructionsExpandAsStated : Obligations.PseudoInstructionsExpandAsStated := by
  refine ⟨fun k pad => ?_, fun k => ?_, fun w => ?_, rfl, fun bs => ?_⟩
  · rw [lineCommands_setMode, modeValue_eq_or]
    rfl
  · rw [← modeValue_none_eq]
    simp [lineCommands, Csr.number]
  · have hline := lineCommands_setWrap (some w)
    rwa [wrapValue_some_eq_or] at hline
  · simp [lineCommands, pushCommands]

/-- Settles O53: a full read expands to its pushes, the last one, which is shorter, to its pushes and END, and the reads make
up the stream. -/
theorem chunkReadsExpandToPushesAndEnd : Obligations.ChunkReadsExpandToPushesAndEnd := by
  intro c xs hc
  set full := (List.range (xs.length / c)).map fun q => (xs.drop (q * c)).take c with hfull
  set last := xs.drop (xs.length / c * c)
  have hfullLen : ∀ bs ∈ full, bs.length = c := by
    intro bs hbs
    obtain ⟨q, hq, rfl⟩ := List.mem_map.1 hbs
    have hle : (q + 1) * c ≤ xs.length := (Nat.le_div_iff_mul_le hc).1 (List.mem_range.1 hq)
    rw [Nat.succ_mul] at hle
    rw [List.length_take, List.length_drop]
    omega
  have hlastLen : last.length < c := by
    rw [List.length_drop, ← Nat.mod_eq_sub_div_mul]
    exact Nat.mod_lt _ hc
  have hlen : ∀ bs ∈ reads c xs, bs.length ≤ c := by
    intro bs hbs
    rcases List.mem_append.1 hbs with hbs | hbs
    · exact (hfullLen bs hbs).le
    · exact List.mem_singleton.1 hbs ▸ hlastLen.le
  have hfullExpansion : full.map (chunkExpansion c) = full.map pushCommands :=
    List.map_congr_left fun bs hbs => by simp [chunkExpansion, hfullLen bs hbs]
  have hlastExpansion : chunkExpansion c last = pushCommands last ++ [.endStream] := by
    simp [chunkExpansion, hlastLen]
  have hstream : full.flatten ++ last = xs := by
    rw [hfull, ← List.flatMap_def, flatMap_full_reads, List.take_append_drop]
  refine ⟨(reads c xs).map (chunkExpansion c), mapM_eq_some_map fun bs hbs => lineCommands_chunk (hlen bs hbs), ?_⟩
  calc ((reads c xs).map (chunkExpansion c)).flatten
      = (full.map (chunkExpansion c)).flatten ++ chunkExpansion c last := by simp [reads, hfull, last]
    _ = (full.map pushCommands).flatten ++ pushCommands last ++ [.endStream] := by
      rw [hfullExpansion, hlastExpansion, List.append_assoc]
    _ = (full.flatten ++ last).map .push ++ [.endStream] := by
      rw [List.map_append, List.map_flatten]
      rfl
    _ = xs.map .push ++ [.endStream] := by rw [hstream]

end Sys2Proof.Proofs

/-! SUPPORT. The host's boot sequence: SETMODE and SETWRAP write their registers, LOADALPHA loads the table, and the
configuration passes START's check. -/

namespace Sys2Proof.Machine

open Sys2Proof.Safety Sys2Proof.Claims

/-! ### LOADALPHA (30_encoding.md R96) -/

/-- WRALPHA of each symbol, in index order from `i`. -/
def loadCommands : Nat → List Byte → List Instr
  | _, [] => []
  | i, b :: bs => .wralpha (BitVec.ofNat 8 i) b :: loadCommands (i + 1) bs

/-- A table with the symbols `bs` in its entries from `i` on. -/
def loadFrom : Nat → List Byte → List Byte → List Byte
  | _, [], table => table
  | i, b :: bs, table => loadFrom (i + 1) bs (table.set i b)

theorem alphaCommands_map_toNat {i : Nat} {bs : List Byte} (h : i + bs.length ≤ 256) :
    alphaCommands i (bs.map BitVec.toNat) = some (loadCommands i bs) := by
  induction bs generalizing i with
  | nil => rfl
  | cons b bs ih =>
    rw [List.length_cons] at h
    have hindex : fit 8 i = some (BitVec.ofNat 8 i) := if_pos (show i < 256 by omega)
    simp [alphaCommands, loadCommands, hindex, ih (i := i + 1) (by omega)]

theorem lineCommands_loadAlpha {bs : List Byte} (h : bs.length ≤ 256) :
    lineCommands (.loadAlpha (bs.map BitVec.toNat)) =
      some (loadCommands 0 bs ++ [.wrcsr Csr.alen.number (BitVec.ofNat 24 bs.length)]) := by
  have hlen : fit 24 bs.length = some (BitVec.ofNat 24 bs.length) := if_pos (show bs.length < 2 ^ 24 by omega)
  simp [lineCommands, alphaCommands_map_toNat (i := 0) (bs := bs) (by omega), hlen]

/-- Outside a session the commands load the table (40_config.md R110). -/
theorem execAll_loadCommands {i : Nat} {bs : List Byte} {s : State} (hne : s.state ≠ .active)
    (h : i + bs.length ≤ s.params.alphaMax) :
    execAll (loadCommands i bs) s = .next { s with alphabet := loadFrom i bs s.alphabet } := by
  induction bs generalizing i s with
  | nil => rfl
  | cons b bs ih =>
    rw [List.length_cons] at h
    have hmax := Laws.Config.alphaMax_le s.params
    have hindex : (BitVec.ofNat 8 i).toNat = i := (BitVec.toNat_ofNat ..).trans (Nat.mod_eq_of_lt (by omega))
    have wf : (Instr.wralpha (BitVec.ofNat 8 i) b).WellFormed s.params :=
      (Laws.wralpha_wellFormed_iff ..).2 (by omega)
    have hexec : exec (.wralpha (BitVec.ofNat 8 i) b) s = .next (s.setAlphabet i b) := by
      rw [exec_of_barred_of_ne wf hne rfl, effectOf, hindex]
    exact (execAll_cons hexec _).trans (ih (s := s.setAlphabet i b) hne (by simpa using (by omega)))

theorem getElem?_loadFrom_of_lt {i j : Nat} (h : j < i) (bs table : List Byte) :
    (loadFrom i bs table)[j]? = table[j]? := by
  induction bs generalizing i table with
  | nil => rfl
  | cons b bs ih => rw [loadFrom, ih (by omega), List.getElem?_set_ne (by omega)]

theorem getElem?_loadFrom_add {i j : Nat} {bs table : List Byte} (hj : j < bs.length)
    (h : i + bs.length ≤ table.length) : (loadFrom i bs table)[i + j]? = bs[j]? := by
  induction bs generalizing i j table with
  | nil => simp at hj
  | cons b bs ih =>
    rw [List.length_cons] at hj h
    rw [loadFrom]
    cases j with
    | zero =>
      rw [getElem?_loadFrom_of_lt (by omega), Nat.add_zero, List.getElem?_set_self (by omega)]
      rfl
    | succ j =>
      rw [← Nat.add_assoc, Nat.add_right_comm, ih (by omega) (by rw [List.length_set]; omega)]
      rfl

/-! ### The configuration written -/

/-- The configuration the boot sequence writes. -/
def State.configured (s : State) (pad : Byte) (k : BitVec 4) (width : Option (BitVec 16)) (alphabet : List Byte) : State :=
  { s with
    mode := modeValue pad k
    wrap := wrapValue width
    alen := BitVec.ofNat 24 alphabet.length
    alphabet := loadFrom 0 alphabet s.alphabet }

theorem reservedClear_modeValue (pad : Byte) (k : BitVec 4) : reservedClear .mode (modeValue pad k) = true := by
  simp only [reservedClear, Bool.and_eq_true, beq_iff_eq, Laws.bits_eq_zero_iff, modeValue_toNat]
  omega

theorem reservedClear_wrapValue (width : Option (BitVec 16)) : reservedClear .wrap (wrapValue width) = true := by
  cases width with
  | none => rfl
  | some w =>
    simp only [reservedClear, beq_iff_eq, Laws.bits_eq_zero_iff, wrapValue_some_toNat]
    omega

theorem reservedClear_alen_ofNat {n : Nat} (h : n ≤ 256) : reservedClear .alen (BitVec.ofNat 24 n) = true := by
  simp only [reservedClear, beq_iff_eq, Laws.bits_eq_zero_iff, BitVec.toNat_ofNat]
  omega

/-- The commands of the boot sequence before START write the configuration (70_reset_and_hazards.md R223). -/
theorem execAll_configure {s : State} (hne : s.state ≠ .active) (pad : Byte) (k : BitVec 4) (width : Option (BitVec 16))
    {alphabet : List Byte} (h : alphabet.length ≤ s.params.alphaMax) :
    execAll ([.wrcsr Csr.mode.number (modeValue pad k)] ++ [.wrcsr Csr.wrap.number (wrapValue width)] ++
        (loadCommands 0 alphabet ++ [.wrcsr Csr.alen.number (BitVec.ofNat 24 alphabet.length)])) s =
      .next (s.configured pad k width alphabet) := by
  have hmax := Laws.Config.alphaMax_le s.params
  have hwrite : ∀ (c : Csr) (value : BitVec 24) (t : State), (Instr.wrcsr c.number value).WellFormed t.params →
      t.state ≠ .active → execAll [.wrcsr c.number value] t = .next (t.writeCsr c value) :=
    fun c value t wf hne => execAll_cons (exec_wrcsr_number wf hne) []
  have hmode := hwrite .mode _ s
    ((Laws.wrcsr_wellFormed_iff ..).2 (.inl ⟨rfl, reservedClear_modeValue pad k⟩)) hne
  have hwrap := hwrite .wrap _ (s.writeCsr .mode (modeValue pad k))
    ((Laws.wrcsr_wellFormed_iff ..).2 (.inr (.inl ⟨rfl, reservedClear_wrapValue width⟩))) hne
  have hload := execAll_loadCommands (i := 0) (bs := alphabet)
    (s := (s.writeCsr .mode (modeValue pad k)).writeCsr .wrap (wrapValue width)) hne (by simpa using h)
  rw [execAll_append ((execAll_append hmode _).trans hwrap), execAll_append hload]
  exact hwrite .alen _ _ ((Laws.wrcsr_wellFormed_iff ..).2 (.inr (.inr ⟨rfl, reservedClear_alen_ofNat (by omega)⟩))) hne

section Configured

variable (s : State) (pad : Byte) (k : BitVec 4) (width : Option (BitVec 16)) (alphabet : List Byte)

theorem State.configured_bitWidth : (s.configured pad k width alphabet).bitWidth = k.toNat := by
  have hmode : (s.configured pad k width alphabet).mode.toNat = _ := modeValue_toNat pad k
  rw [State.bitWidth_eq, hmode]
  omega

theorem State.configured_padSym : (s.configured pad k width alphabet).padSym = pad := by
  have hmode : (s.configured pad k width alphabet).mode.toNat = _ := modeValue_toNat pad k
  refine BitVec.eq_of_toNat_eq ?_
  rw [State.padSym, Laws.bits_toNat, hmode]
  omega

theorem State.configured_wrapEn : (s.configured pad k width alphabet).wrapEn = width.isSome := by
  cases width with
  | none =>
    have hwrap : (s.configured pad k none alphabet).wrap = 0 := rfl
    rw [State.wrapEn, hwrap]
    rfl
  | some w =>
    have hwrap : (s.configured pad k (some w) alphabet).wrap.toNat = _ := wrapValue_some_toNat w
    refine (State.wrapEn_iff _).2 ?_
    rw [hwrap]
    omega

theorem State.configured_wrapWidth {w : BitVec 16} (hw : w ∈ width) (hlt : w.toNat < 2 ^ (s.params.wrapBits : Nat)) :
    (s.configured pad k width alphabet).wrapWidth = w := by
  obtain rfl : width = some w := hw
  have hwrap : (s.configured pad k (some w) alphabet).wrap.toNat = _ := wrapValue_some_toNat w
  obtain ⟨m, hm⟩ : 2 ^ (s.params.wrapBits : Nat) ∣ 2 ^ 16 := pow_dvd_pow 2 (by omega)
  refine BitVec.eq_of_toNat_eq ?_
  rw [State.wrapWidth_toNat, hwrap, hm]
  exact (Nat.mul_add_mod ..).trans (Nat.mod_eq_of_lt hlt)

theorem State.configured_symbol (h : alphabet.length ≤ s.alphabet.length) {i : Nat}
    (hi : i < alphabet.length) : (s.configured pad k width alphabet).symbol i = alphabet[i] := by
  have hentry : (loadFrom 0 alphabet s.alphabet)[0 + i]? = alphabet[i]? := getElem?_loadFrom_add hi (by omega)
  rw [Nat.zero_add, List.getElem?_eq_getElem hi] at hentry
  rw [State.symbol, State.configured, hentry, Option.getD_some]

/-- A supported width, a symbol for each of its indices and a usable line pass START's check (40_config.md R116). -/
theorem State.configured_valid (hk : k.toNat ∈ s.params.supportedK)
    (hlen : alphabet.length = 2 ^ k.toNat) (hwidth : ∀ w ∈ width, w ≠ 0 ∧ w.toNat < 2 ^ (s.params.wrapBits : Nat)) :
    (s.configured pad k width alphabet).configValid = true := by
  obtain ⟨-, -, h8⟩ := Laws.Config.mem_supportedK.1 hk
  have hle : 2 ^ k.toNat ≤ 2 ^ 8 := Nat.pow_le_pow_right (by decide) h8
  refine (State.configValid_iff _).2 ⟨?_, ?_, .inr ?_, ?_⟩
  · rwa [State.configured_bitWidth]
  · rw [State.configured_bitWidth, ← hlen]
    show (BitVec.ofNat 24 alphabet.length).toNat % 512 = alphabet.length
    rw [BitVec.toNat_ofNat]
    omega
  · show (modeValue pad k).toNat / 2 ^ 8 % 2 = 1
    rw [modeValue_toNat]
    omega
  · cases width with
    | none =>
      left
      show (0 : BitVec 24).toNat / 2 ^ 16 % 2 = 0
      decide
    | some w =>
      obtain ⟨hne, hlt⟩ := hwidth w rfl
      have hw := s.configured_wrapWidth pad k (some w) alphabet rfl hlt
      rw [← State.wrapWidth_toNat, hw]
      exact .inr (Nat.pos_of_ne_zero fun h0 => hne (BitVec.eq_of_toNat_eq h0))

end Configured

end Sys2Proof.Machine

/-! The statement of 70_reset_and_hazards.md R223: the boot sequence. -/

namespace Sys2Proof.Proofs

open Sys2Proof.Machine Sys2Proof.Safety Sys2Proof.Claims

/-- Settles O30: the pseudo-instructions write the configuration, which passes START's check. -/
theorem bootSequenceStartsASession : Obligations.BootSequenceStartsASession := by
  intro s k pad width alphabet c1 c2 c3 hne hk hlen hwidth h1 h2 h3
  obtain ⟨-, -, h8⟩ := Laws.Config.mem_supportedK.1 hk
  obtain ⟨k, rfl⟩ : ∃ v : BitVec 4, k = v.toNat :=
    ⟨BitVec.ofNat 4 k, ((BitVec.toNat_ofNat ..).trans (Nat.mod_eq_of_lt (show k < 16 by omega))).symm⟩
  have hfits : alphabet.length ≤ s.params.alphaMax := hlen.trans_le (Laws.Config.alphabet_fits hk)
  rw [lineCommands_setMode] at h1
  rw [lineCommands_setWrap] at h2
  rw [lineCommands_loadAlpha (hfits.trans (Laws.Config.alphaMax_le _))] at h3
  cases h1
  cases h2
  cases h3
  have hv := s.configured_valid pad k width alphabet hk hlen hwidth
  have hstart : exec .start (s.configured pad k width alphabet) = .next (s.configured pad k width alphabet).beginSession := by
    rw [exec_start (s := s.configured pad k width alphabet) hne, startEffect_of_valid hv]
  refine ⟨_, (execAll_append (execAll_configure hne pad k width hfits) _).trans (execAll_cons hstart []), rfl, rfl,
    s.configured_bitWidth pad k width alphabet, s.configured_padSym pad k width alphabet,
    s.configured_wrapEn pad k width alphabet, fun w hw => ?_, fun hsize i hi => ?_, rfl, rfl, rfl, rfl⟩
  · exact s.configured_wrapWidth pad k width alphabet hw (hwidth w hw).2
  · exact s.configured_symbol pad k width alphabet (hsize ▸ hfits) hi

end Sys2Proof.Proofs
